-- ==== Sys2Proof/Word.lean ====
section
/-! DEFINITION. The bit vectors of the reassembler: bytes of a stream, and the fields of a frame's first byte.
Everything else the spec calls a number is a natural (R11, R26). -/

namespace Sys2Proof

/-- A byte: 8 bits, unsigned (R11). -/
abbrev Byte := BitVec 8

/-- A length-class code, byte 0 bits 7:4 (R8, R72). -/
abbrev Code := BitVec 4

/-- A bus id, byte 0 bits 3:1 (R8, R72). -/
abbrev BusId := BitVec 3

end Sys2Proof
end

