-- ==== Sys2Proof/Config.lean ====
section
/-! DEFINITION. What is fixed for a run: the constants of R8, the parameters of R9 as plain data, and the values
the spec leaves open as constants without a value. -/

namespace Sys2Proof

/-- HEAD_SIZE (R8). -/
abbrev headSize : Nat := 6

/-- MAX_PAYLOAD (R8). -/
abbrev maxPayload : Nat := 64

/-- MIN_FRAME (R8). -/
abbrev minFrame : Nat := 6

/-- MAX_FRAME = HEAD_SIZE + MAX_PAYLOAD (R8). -/
abbrev maxFrame : Nat := 70

/-- The least OVF_CAP a configuration may have (R9). -/
abbrev minOvfCap : Nat := 72

/-- The two transport kinds (R8, R12). -/
inductive TransportKind where
  | usb
  | spi
  deriving DecidableEq, Repr

/-- The parameters a configuration can break (R208). T_USB, T_SPI and NOTIFY_ON_INCOMPLETE carry no
constraint (R9). -/
inductive Param where
  | ovfCap
  | lenTable
  | lenFieldBits
  deriving DecidableEq, Repr

/-- The parameters of R9. The model takes them as an argument: they are a field of the state that no step
writes (R42). -/
structure Config where
  /-- OVF_CAP, the capacity of each overflow buffer in bytes. -/
  ovfCap : Nat
  /-- LEN_TABLE: for each code its payload length, or none where the code is not recognised (R77, R79). -/
  lenTable : Vector (Option Nat) 16
  /-- T_USB. -/
  tUsb : Nat
  /-- T_SPI. -/
  tSpi : Nat
  /-- NOTIFY_ON_INCOMPLETE (R178). -/
  notifyOnIncomplete : Bool
  /-- LEN_FIELD_BITS, the width of the LEN field of the command word (R83). -/
  lenFieldBits : Nat
  deriving DecidableEq, Repr

/-- T_USB as the spec leaves it: OPEN, no value (R9, D12). FREE VALUE, log 4. -/
opaque Config.openTUsb : Nat

/-- T_SPI as the spec leaves it: OPEN, no value (R9, D12). FREE VALUE, log 4. -/
opaque Config.openTSpi : Nat

/-- The answer of the `i`-th FreeSlots query that the state's draw lists do not answer: an environment draw
with no relation to any other (R171). FREE VALUE, log 6. -/
opaque Config.freeSlotsDraw : TransportKind → Nat → Nat

end Sys2Proof
end

