-- ==== Sys2Proof/Syntax.lean ====
section
/-! DEFINITION. The rows of spec/opcode_table.json: the three operations a transport issues (R3, R84) and the
sixteen length-class codes of a frame's first byte (R96). -/

namespace Sys2Proof

/-- One constructor per row of spec/opcode_table.json. -/
inductive Instr where
  /-- READ with capacity C (R100). -/
  | read (cap : Nat)
  /-- WRITE with its source bytes S[0..L); L is their count (R130). -/
  | write (src : List Byte)
  /-- RESET (R185). -/
  | reset
  /-- FRAME_CODE0: byte 0 of a frame with length-class code 0 (R72, R96). -/
  | frameCode0 (bus : BusId) (fd : Bool)
  /-- FRAME_CODE1: byte 0 of a frame with length-class code 1 (R72, R96). -/
  | frameCode1 (bus : BusId) (fd : Bool)
  /-- FRAME_CODE2: byte 0 of a frame with length-class code 2 (R72, R96). -/
  | frameCode2 (bus : BusId) (fd : Bool)
  /-- FRAME_CODE3: byte 0 of a frame with length-class code 3 (R72, R96). -/
  | frameCode3 (bus : BusId) (fd : Bool)
  /-- FRAME_CODE4: byte 0 of a frame with length-class code 4 (R72, R96). -/
  | frameCode4 (bus : BusId) (fd : Bool)
  /-- FRAME_CODE5: byte 0 of a frame with length-class code 5 (R72, R96). -/
  | frameCode5 (bus : BusId) (fd : Bool)
  /-- FRAME_CODE6: byte 0 of a frame with length-class code 6 (R72, R96). -/
  | frameCode6 (bus : BusId) (fd : Bool)
  /-- FRAME_CODE7: byte 0 of a frame with length-class code 7 (R72, R96). -/
  | frameCode7 (bus : BusId) (fd : Bool)
  /-- FRAME_CODE8: byte 0 of a frame with length-class code 8 (R72, R96). -/
  | frameCode8 (bus : BusId) (fd : Bool)
  /-- FRAME_CODE9: byte 0 of a frame with length-class code 9 (R72, R96). -/
  | frameCode9 (bus : BusId) (fd : Bool)
  /-- FRAME_CODE10: byte 0 of a frame with length-class code 10 (R72, R96). -/
  | frameCode10 (bus : BusId) (fd : Bool)
  /-- FRAME_CODE11: byte 0 of a frame with length-class code 11 (R72, R96). -/
  | frameCode11 (bus : BusId) (fd : Bool)
  /-- FRAME_CODE12: byte 0 of a frame with length-class code 12 (R72, R96). -/
  | frameCode12 (bus : BusId) (fd : Bool)
  /-- FRAME_CODE13: byte 0 of a frame with length-class code 13 (R72, R96). -/
  | frameCode13 (bus : BusId) (fd : Bool)
  /-- FRAME_CODE14: byte 0 of a frame with length-class code 14 (R72, R96). -/
  | frameCode14 (bus : BusId) (fd : Bool)
  /-- FRAME_CODE15: byte 0 of a frame with length-class code 15 (R72, R96). -/
  | frameCode15 (bus : BusId) (fd : Bool)
  deriving DecidableEq, Repr

end Sys2Proof
end

