-- ==== Sys2Proof/WellFormed.lean ====
section
/-! DEFINITION. Which instructions a command word can carry: the LEN field has LEN_FIELD_BITS bits (R83), so a
capacity and a byte count are below 2^LEN_FIELD_BITS (R100, R130). Every frame head is well formed. -/

namespace Sys2Proof

/-- `i` can be asked for with a command word whose LEN field has `lfb` bits. -/
def Instr.wf (lfb : Nat) : Instr → Bool
  | .read cap => decide (cap < 2 ^ lfb)
  | .write src => decide (src.length < 2 ^ lfb)
  | .reset => true
  | .frameCode0 _ _ => true
  | .frameCode1 _ _ => true
  | .frameCode2 _ _ => true
  | .frameCode3 _ _ => true
  | .frameCode4 _ _ => true
  | .frameCode5 _ _ => true
  | .frameCode6 _ _ => true
  | .frameCode7 _ _ => true
  | .frameCode8 _ _ => true
  | .frameCode9 _ _ => true
  | .frameCode10 _ _ => true
  | .frameCode11 _ _ => true
  | .frameCode12 _ _ => true
  | .frameCode13 _ _ => true
  | .frameCode14 _ _ => true
  | .frameCode15 _ _ => true

end Sys2Proof
end

