-- ==== Sys2Proof/Decode.lean ====
section
/-! DEFINITION. Decoding: bit fields, the fields of a frame's first byte, the frame-length decoder FLD, the command
words, and the encoder beside them (30_encoding.md). -/

namespace Sys2Proof

/-- `v[hi:lo]` of a natural: bits hi down to lo as an unsigned number (R11). -/
def bits (v hi lo : Nat) : Nat := v / 2 ^ lo % 2 ^ (hi + 1 - lo)

/-! ## The first byte of a frame -/

/-- CODE = b0[7:4] (R72). -/
def codeOf (b0 : Byte) : Code := b0.extractLsb' 4 4

/-- BUS = b0[3:1] (R72). -/
def busOf (b0 : Byte) : BusId := b0.extractLsb' 1 3

/-- FD = b0[0] (R72). -/
def fdOf (b0 : Byte) : Bool := b0.getLsbD 0

/-- The byte with the given CODE, BUS and FD (R72). -/
def frameByte0 (code : Code) (bus : BusId) (fd : Bool) : Byte := code ++ bus ++ BitVec.ofBool fd

/-! ## The frame-length decoder -/

/-- The default LEN_TABLE, the CAN FD data-length-code table (R77). PRESUMED, log 5: the spec has it from general
knowledge. -/
def defaultLenTable : Vector (Option Nat) 16 :=
  #v[some 0, some 1, some 2, some 3, some 4, some 5, some 6, some 7, some 8, some 12, some 16, some 20,
     some 24, some 32, some 48, some 64]

/-- The configuration the spec uses when a claim names none (R9); the two thresholds are open. -/
def defaultConfig : Config where
  ovfCap := 72
  lenTable := defaultLenTable
  tUsb := Config.openTUsb
  tSpi := Config.openTSpi
  notifyOnIncomplete := true
  lenFieldBits := 24

/-- LEN_TABLE[code] (R77). -/
def lenOf (cfg : Config) (code : Code) : Option Nat := cfg.lenTable.get code.toFin

/-- FLD(b0): the total length of a frame from its first byte, or none for an unrecognised code (R78). -/
def fld (cfg : Config) (b0 : Byte) : Option Nat :=
  match lenOf cfg (codeOf b0) with
  | some n => some (headSize + n)
  | none => none

/-! ## What travels to the block -/

/-- What reaches the block's two decoders (R70): a command word of a transport with the data bytes delivered on
the data side so far (R83, R85), or the first byte of a frame (R71, R96). -/
inductive Wire where
  | command (word : Nat) (data : List Byte)
  | frameHead (b0 : Byte)
  deriving DecidableEq, Repr

/-- Why a wire is no instruction. The first three are the illegal command words of R87. -/
inductive Reject where
  /-- R87 (a): OP = 00. -/
  | illegalOp
  /-- R87 (b): RSV ≠ 0. -/
  | reservedBits
  /-- R87 (c): RESET with LEN ≠ 0. -/
  | resetWithLen
  /-- A WRITE of which fewer than L bytes have been delivered: not a transaction yet (R85). -/
  | dataPending
  /-- More data bytes than the transaction has (R85: exactly L for a WRITE). Log 13. -/
  | surplusData
  /-- A number that needs more than 8 + LEN_FIELD_BITS bits: no command word at all (R83). Log 13. -/
  | notAWord
  deriving DecidableEq, Repr

/-- Decoding a command word with a LEN field of `lfb` bits (R83 to R88), the data bytes beside it. -/
def decodeCommand (lfb word : Nat) (data : List Byte) : Except Reject Instr :=
  let op := bits word 1 0
  let rsv := bits word 7 2
  let len := bits word (7 + lfb) 8
  if 2 ^ (8 + lfb) ≤ word then .error .notAWord
  else if rsv ≠ 0 then .error .reservedBits
  else if op = 0 then .error .illegalOp
  else if op = 1 then
    if data.length = 0 then .ok (.read len) else .error .surplusData
  else if op = 2 then
    if data.length < len then .error .dataPending
    else if len < data.length then .error .surplusData
    else .ok (.write data)
  else if len ≠ 0 then .error .resetWithLen
  else if data.length = 0 then .ok .reset
  else .error .surplusData

/-- The row of a frame's first byte: CODE selects it, BUS and FD are its operands (R72, R96). A code is below 16,
so the last arm is code 15. -/
def decodeFrameHead (b0 : Byte) : Instr :=
  let bus := busOf b0
  let fd := fdOf b0
  match (codeOf b0).toNat with
  | 0 => .frameCode0 bus fd
  | 1 => .frameCode1 bus fd
  | 2 => .frameCode2 bus fd
  | 3 => .frameCode3 bus fd
  | 4 => .frameCode4 bus fd
  | 5 => .frameCode5 bus fd
  | 6 => .frameCode6 bus fd
  | 7 => .frameCode7 bus fd
  | 8 => .frameCode8 bus fd
  | 9 => .frameCode9 bus fd
  | 10 => .frameCode10 bus fd
  | 11 => .frameCode11 bus fd
  | 12 => .frameCode12 bus fd
  | 13 => .frameCode13 bus fd
  | 14 => .frameCode14 bus fd
  | _ => .frameCode15 bus fd

/-- The decoder: total, rejecting by name. -/
def decode (lfb : Nat) : Wire → Except Reject Instr
  | .command word data => decodeCommand lfb word data
  | .frameHead b0 => .ok (decodeFrameHead b0)

/-- The command word with operation `op` and length field `len`, RSV = 0 (R83). -/
def commandWord (op len : Nat) : Nat := op + 256 * len

/-- The encoder (R83 to R85, R72). The LEN field is not scaled, so the word does not depend on its width. -/
def encode : Instr → Wire
  | .read cap => .command (commandWord 1 cap) []
  | .write src => .command (commandWord 2 src.length) src
  | .reset => .command (commandWord 3 0) []
  | .frameCode0 bus fd => .frameHead (frameByte0 0#4 bus fd)
  | .frameCode1 bus fd => .frameHead (frameByte0 1#4 bus fd)
  | .frameCode2 bus fd => .frameHead (frameByte0 2#4 bus fd)
  | .frameCode3 bus fd => .frameHead (frameByte0 3#4 bus fd)
  | .frameCode4 bus fd => .frameHead (frameByte0 4#4 bus fd)
  | .frameCode5 bus fd => .frameHead (frameByte0 5#4 bus fd)
  | .frameCode6 bus fd => .frameHead (frameByte0 6#4 bus fd)
  | .frameCode7 bus fd => .frameHead (frameByte0 7#4 bus fd)
  | .frameCode8 bus fd => .frameHead (frameByte0 8#4 bus fd)
  | .frameCode9 bus fd => .frameHead (frameByte0 9#4 bus fd)
  | .frameCode10 bus fd => .frameHead (frameByte0 10#4 bus fd)
  | .frameCode11 bus fd => .frameHead (frameByte0 11#4 bus fd)
  | .frameCode12 bus fd => .frameHead (frameByte0 12#4 bus fd)
  | .frameCode13 bus fd => .frameHead (frameByte0 13#4 bus fd)
  | .frameCode14 bus fd => .frameHead (frameByte0 14#4 bus fd)
  | .frameCode15 bus fd => .frameHead (frameByte0 15#4 bus fd)

/-- `word` is one of the illegal command words of R87, written as that rule lists them. -/
def IllegalCommandWord (lfb word : Nat) : Prop :=
  bits word 1 0 = 0 ∨ bits word 7 2 ≠ 0 ∨ (bits word 1 0 = 3 ∧ bits word (7 + lfb) 8 ≠ 0)

/-! ## The host's numbering of the opcode table -/

/-- The wire of a row of the opcode table given as `nbits` bits (log 18). The rows of format cmd32 have 32 bits and
RSV = 0; the rows of format frame_byte0 have one byte, which is all the block reads of them (R76), whatever width
the table's reader gives them. A WRITE's data bytes are zeros. -/
def tableWire (lfb nbits w : Nat) : Wire :=
  if 32 ≤ nbits ∧ bits w 7 4 = 0 then
    .command w (if bits w 7 0 = 2 then List.replicate (bits w (7 + lfb) 8) 0#8 else [])
  else .frameHead (BitVec.ofNat 8 w)

/-- What the decoder gives for a row of the opcode table, with the default LEN_FIELD_BITS. -/
def decodeTableWord (nbits w : Nat) : Option Instr :=
  match decode 24 (tableWire 24 nbits w) with
  | .ok i => some i
  | .error _ => none

end Sys2Proof
end

