-- ==== Sys2Proof/Machine/State.lean ====
section
/-! DEFINITION. The state of the reassembler: the two directions' registers and buffers (R20 to R27), the spec's
bookkeeping (R28, R29, R201), the collaborators' side of the interface (R41, R117, R171), the transaction data (R50)
and the configuration (R9, R42); and the state right after RESET. Plain data throughout. -/

namespace Sys2Proof.Machine

/-- A byte-addressed space (R50): the bytes that differ from what an unlisted address reads as, by rising address. -/
abbrev Memory := List Host.Cell

/-- A frame of the receive queue as its wire bytes (R216); `b0` is byte 0, which carries the length-class code (R71).
A queued frame has at least that byte (log 19); its length need not agree with its code (R204). -/
structure Frame where
  b0 : Byte
  rest : List Byte
  deriving DecidableEq, Repr

/-- An event of the history H (R29). -/
inductive Event where
  /-- A frame handed to the transmit path with its bus id (R217). -/
  | submit (bytes : List Byte) (bus : BusId)
  /-- A resume signal to a transport (R219). -/
  | resume (kind : TransportKind)
  /-- A frame taken from the receive queue (R216). -/
  | pop (bytes : List Byte)
  /-- The write side rejected a frame with this first byte (R137). -/
  | corruptStream (b0 : Byte)
  deriving DecidableEq, Repr

/-- A model-fault record: name and info (R201, R205). -/
inductive FaultRecord where
  /-- R202: READ or WRITE before any RESET. -/
  | noSession
  /-- R203: an illegal command word. -/
  | illegalCommand (word : Nat)
  /-- R204: a popped frame whose length is not FLD of its first byte. -/
  | rxCorrupt (b0 : Byte)
  /-- R208: parameters that violate R9. -/
  | configInvalid (param : Param)
  deriving DecidableEq, Repr

/-- Why a step stops. -/
inductive Fault where
  /-- Raised by step in a state that holds a model-fault record: the machine takes no further step from it (R201).
  Safe: a run that faulted supports no claim. -/
  | quiescent
  /-- Raised by the overflow-buffer accesses of READ and WRITE outside 0..OVF_CAP-1, where the spec has no byte (R12,
  R50). Safe: R57 and R152 show that no operation of a run makes such an access. Log 11. -/
  | bufferOverrun
  deriving DecidableEq, Repr

/-- Why the model gives no meaning. -/
inductive Refusal where
  /-- Raised by exec for an instruction without a meaning; no arm raises it in this model. Safe. -/
  | notModelled (mnemonic : String)
  /-- Raised by step when the configuration breaks R9: no run of it exists (R208). Safe. Log 12. -/
  | configInvalid (record : FaultRecord)
  /-- Raised by step for a request that is no transaction of R83 and R85: a number wider than the command word, or
  more data bytes than the operation has. Safe. Log 13. -/
  | malformedRequest (why : Reject)
  deriving DecidableEq, Repr

/-- What the block's surroundings do next (R214). -/
inductive Input where
  /-- A transaction of the transport, or a frame's first byte shown to the frame-length decoder (log 8, log 9). -/
  | wire (w : Wire)
  /-- CAN-RX appends a frame to the receive queue (R214; the directive ENQ of R91). -/
  | canRx (f : Frame)
  /-- CAN-TX leaves these answers for the next FreeSlots(USB) and FreeSlots(SPI) (the directive SLOTS of R91). -/
  | slots (usb spi : Nat)
  deriving DecidableEq, Repr

/-- The read-side state RD (R21, R22). -/
structure RdState where
  /-- RD.buf. -/
  buf : Memory
  /-- RD.filled. -/
  filled : Nat
  deriving DecidableEq, Repr

/-- The write-side state WR (R23 to R25, R27). -/
structure WrState where
  /-- WR.buf. -/
  buf : Memory
  /-- WR.filled. -/
  filled : Nat
  /-- WR.needed. -/
  needed : Nat
  /-- WR.reject. -/
  reject : Bool
  deriving DecidableEq, Repr

/-- The machine. -/
structure State where
  /-- The parameters; no step writes them (R42). Log 4. -/
  cfg : Config
  /-- RD. -/
  rd : RdState
  /-- WR. -/
  wr : WrState
  /-- session_open (R28). -/
  sessionOpen : Bool
  /-- H, oldest event first (R29). -/
  history : List Event
  /-- The set of model-fault records, without repeats (R201). -/
  faults : List FaultRecord
  /-- rxq, the receive queue, oldest frame first (R41). -/
  rxq : List Frame
  /-- What CAN-RX appends before the coming Pop() calls, one list a call; none once it is used up (R117). Log 7. -/
  arrivals : List (List Frame)
  /-- The environment's answers to the coming FreeSlots(USB) queries (R171). Log 6. -/
  usbDraws : List Nat
  /-- The environment's answers to the coming FreeSlots(SPI) queries (R171). Log 6. -/
  spiDraws : List Nat
  /-- The model's own count of FreeSlots queries that the lists did not answer (log 6). -/
  draws : Nat
  /-- D, the destination the caller owns (R51). Log 14. -/
  dst : Memory
  /-- The last operation's response word; none where it gave none (R92). Log 15. -/
  response : Option Nat
  /-- The model's own record of the last answer FLD gave a FRAME_CODE row; none before the first (log 8). -/
  fldAnswer : Option (Option Nat)
  /-- What the surroundings do next, in order (R214). Log 9. -/
  agenda : List Input
  deriving DecidableEq, Repr

/-- The state after RESET (R40, R241), of a block that was reset straight after power-on (R240: `H` and `faults`
empty), with the default configuration (R9). The bytes the spec leaves unspecified and the environment's side are
the model's choice (log 1, log 2, log 6, log 7, log 14, log 15). -/
def State.reset : State where
  cfg := defaultConfig
  rd := ⟨[], 0⟩
  wr := ⟨[], 0, 0, false⟩
  sessionOpen := true
  history := []
  faults := []
  rxq := []
  arrivals := []
  usbDraws := []
  spiDraws := []
  draws := 0
  dst := []
  response := none
  fldAnswer := none
  agenda := []

end Sys2Proof.Machine
end

