-- ==== Sys2Proof/Machine/Ops.lean ====
section
/-! DEFINITION. The named operations over the state: memory (R12, R50, R56), the history (R29), model faults (R201),
the collaborators' interfaces (R216 to R219), the configuration check (R208). -/

namespace Sys2Proof.Machine

/-! ## Memory -/

/-- What an unlisted address reads as. DESIGN CHOICE, log 2: the spec leaves it unspecified (R38). -/
def Memory.unlisted : Byte := 0#8

/-- The canonical form: addresses strictly rising, no entry that an unlisted address would give. -/
abbrev Memory.wf (m : Memory) : Prop :=
  m.Pairwise (fun c d => c.1 < d.1) ∧ ∀ c ∈ m, c.2 ≠ Memory.unlisted

/-- One byte. -/
def Memory.read : Memory → Nat → Byte
  | [], _ => Memory.unlisted
  | c :: m, a => if c.1 = a then c.2 else Memory.read m a

/-- `m[a..a+n)` in ascending order. -/
def Memory.readRange (m : Memory) (a : Nat) : Nat → List Byte
  | 0 => []
  | n + 1 => Memory.read m a :: Memory.readRange m (a + 1) n

/-- The entries of `bs` laid out from address `a`. -/
def Memory.cells (a : Nat) : List Byte → Memory
  | [] => []
  | b :: bs => if b = Memory.unlisted then Memory.cells (a + 1) bs else (a, b) :: Memory.cells (a + 1) bs

/-- `m[a..a+len(bs)) <- bs`, every other byte kept. -/
def Memory.write (m : Memory) (a : Nat) (bs : List Byte) : Memory :=
  m.filter (fun c => decide (c.1 < a)) ++ Memory.cells a bs ++ m.filter (fun c => decide (a + bs.length ≤ c.1))

/-! ## Operations that may end early -/

/-- An operation that does not complete: it raised a model fault in the state reached so far (R201), or it left the
overflow buffer's addresses (log 11). -/
inductive Abort where
  | raised (record : FaultRecord) (s : State)
  | overrun
  deriving DecidableEq, Repr

/-- MemRead of an overflow buffer: only inside 0..OVF_CAP-1 (R12). -/
def bufRead (cfg : Config) (buf : Memory) (i n : Nat) : Except Abort (List Byte) :=
  if i + n ≤ cfg.ovfCap then .ok (buf.readRange i n) else .error .overrun

/-- MemWrite of an overflow buffer: only inside 0..OVF_CAP-1 (R12). -/
def bufWrite (cfg : Config) (buf : Memory) (i : Nat) (bs : List Byte) : Except Abort Memory :=
  if i + bs.length ≤ cfg.ovfCap then .ok (buf.write i bs) else .error .overrun

/-! ## History, response, model faults -/

/-- Emit(e) (R12). -/
def emit (e : Event) (s : State) : State := { s with history := s.history ++ [e] }

/-- The operation ends with this response word (R92). -/
def respond (w : Nat) (s : State) : State := { s with response := some w }

/-- `raise`, the one way a model fault is taken: its record joins the set and the operation gives no response (R201,
R207). No state is saved and there is no return (R207, R209). -/
def raise (r : FaultRecord) (s : State) : State :=
  { s with faults := if r ∈ s.faults then s.faults else s.faults ++ [r], response := none }

/-- The numeric code of a record (R205). -/
def faultCode : FaultRecord → Nat
  | .noSession => 1
  | .illegalCommand _ => 2
  | .rxCorrupt _ => 3
  | .configInvalid _ => 4

/-- How an operation's body ends: its next state, the state with the fault it raised, or the overrun. -/
def conclude : Except Abort State → Host.Outcome State Fault Refusal
  | .ok s => .next s
  | .error (.raised r s) => .next (raise r s)
  | .error .overrun => .fault .bufferOverrun

/-! ## Transaction data -/

/-- `D[pos..pos+len(bs)) <- bs` (R51). -/
def deliver (pos : Nat) (bs : List Byte) (s : State) : State := { s with dst := s.dst.write pos bs }

/-! ## Collaborators -/

/-- The wire bytes of a frame (R71). -/
def Frame.bytes (f : Frame) : List Byte := f.b0 :: f.rest

/-- CAN-RX appends frames to the receive queue (R41, R214). -/
def arrive (fs : List Frame) (s : State) : State := { s with rxq := s.rxq ++ fs }

/-- What CAN-RX does before a Pop(): the next list of `arrivals` joins the queue (R117). -/
def takeArrivals (s : State) : State := { arrive (s.arrivals.headD []) s with arrivals := s.arrivals.tail }

/-- Pop(): the oldest frame, or none; the environment may append first (R117, R216). -/
def pop (s : State) : Option Frame × State :=
  let s := takeArrivals s
  match s.rxq with
  | [] => (none, s)
  | f :: q => (some f, { s with rxq := q })

/-- Submit(F, bus) and its event (R217); the bus is read from byte 0 of the frame (R134). -/
def submit (b0 : Byte) (bytes : List Byte) (s : State) : State := emit (.submit bytes (busOf b0)) s

/-- FreeSlots(k): the environment's next answer, or a free value where the state holds none (R171, R218). Log 6. -/
def freeSlots (k : TransportKind) (s : State) : Nat × State :=
  match k, s.usbDraws, s.spiDraws with
  | .usb, n :: ns, _ => (n, { s with usbDraws := ns })
  | .spi, _, n :: ns => (n, { s with spiDraws := ns })
  | .usb, [], _ => (Config.freeSlotsDraw .usb s.draws, { s with draws := s.draws + 1 })
  | .spi, _, [] => (Config.freeSlotsDraw .spi s.draws, { s with draws := s.draws + 1 })

/-- CAN-TX leaves these answers for the next queries (R91). -/
def setSlots (usb spi : Nat) (s : State) : State := { s with usbDraws := [usb], spiDraws := [spi] }

/-! ## Configuration -/

/-- The first constraint of R9 that the configuration breaks, if any, as the record of R208. -/
def configFault (cfg : Config) : Option FaultRecord :=
  if cfg.ovfCap < minOvfCap then some (.configInvalid .ovfCap)
  else if cfg.lenTable.toList.any (fun e => e.any (fun n => decide (maxPayload < n))) then some (.configInvalid .lenTable)
  else if ¬ some maxPayload ∈ cfg.lenTable.toList then some (.configInvalid .lenTable)
  else if cfg.lenFieldBits < 7 then some (.configInvalid .lenFieldBits)
  else none

end Sys2Proof.Machine
end

