-- ==== Sys2Proof/Machine/FrameCode.lean ====
section
/-! DEFINITION. The rows FRAME_CODE0 to FRAME_CODE15: a frame's first byte at the frame-length decoder (R78, R96).
FLD is combinational (R2): the one thing it does is answer, and it reads only CODE (R78, R80). Log 8. -/

namespace Sys2Proof.Machine

/-- FLD answers the byte; nothing else changes. -/
def showFrameHead (b0 : Byte) (s : State) : State := { s with fldAnswer := some (fld s.cfg b0) }

/-- FRAME_CODE0 (R78, R96). -/
def execFrameCode0 (bus : BusId) (fd : Bool) (s : State) : Host.Outcome State Fault Refusal :=
  .next (showFrameHead (frameByte0 0#4 bus fd) s)

/-- FRAME_CODE1 (R78, R96). -/
def execFrameCode1 (bus : BusId) (fd : Bool) (s : State) : Host.Outcome State Fault Refusal :=
  .next (showFrameHead (frameByte0 1#4 bus fd) s)

/-- FRAME_CODE2 (R78, R96). -/
def execFrameCode2 (bus : BusId) (fd : Bool) (s : State) : Host.Outcome State Fault Refusal :=
  .next (showFrameHead (frameByte0 2#4 bus fd) s)

/-- FRAME_CODE3 (R78, R96). -/
def execFrameCode3 (bus : BusId) (fd : Bool) (s : State) : Host.Outcome State Fault Refusal :=
  .next (showFrameHead (frameByte0 3#4 bus fd) s)

/-- FRAME_CODE4 (R78, R96). -/
def execFrameCode4 (bus : BusId) (fd : Bool) (s : State) : Host.Outcome State Fault Refusal :=
  .next (showFrameHead (frameByte0 4#4 bus fd) s)

/-- FRAME_CODE5 (R78, R96). -/
def execFrameCode5 (bus : BusId) (fd : Bool) (s : State) : Host.Outcome State Fault Refusal :=
  .next (showFrameHead (frameByte0 5#4 bus fd) s)

/-- FRAME_CODE6 (R78, R96). -/
def execFrameCode6 (bus : BusId) (fd : Bool) (s : State) : Host.Outcome State Fault Refusal :=
  .next (showFrameHead (frameByte0 6#4 bus fd) s)

/-- FRAME_CODE7 (R78, R96). -/
def execFrameCode7 (bus : BusId) (fd : Bool) (s : State) : Host.Outcome State Fault Refusal :=
  .next (showFrameHead (frameByte0 7#4 bus fd) s)

/-- FRAME_CODE8 (R78, R96). -/
def execFrameCode8 (bus : BusId) (fd : Bool) (s : State) : Host.Outcome State Fault Refusal :=
  .next (showFrameHead (frameByte0 8#4 bus fd) s)

/-- FRAME_CODE9 (R78, R96). -/
def execFrameCode9 (bus : BusId) (fd : Bool) (s : State) : Host.Outcome State Fault Refusal :=
  .next (showFrameHead (frameByte0 9#4 bus fd) s)

/-- FRAME_CODE10 (R78, R96). -/
def execFrameCode10 (bus : BusId) (fd : Bool) (s : State) : Host.Outcome State Fault Refusal :=
  .next (showFrameHead (frameByte0 10#4 bus fd) s)

/-- FRAME_CODE11 (R78, R96). -/
def execFrameCode11 (bus : BusId) (fd : Bool) (s : State) : Host.Outcome State Fault Refusal :=
  .next (showFrameHead (frameByte0 11#4 bus fd) s)

/-- FRAME_CODE12 (R78, R96). -/
def execFrameCode12 (bus : BusId) (fd : Bool) (s : State) : Host.Outcome State Fault Refusal :=
  .next (showFrameHead (frameByte0 12#4 bus fd) s)

/-- FRAME_CODE13 (R78, R96). -/
def execFrameCode13 (bus : BusId) (fd : Bool) (s : State) : Host.Outcome State Fault Refusal :=
  .next (showFrameHead (frameByte0 13#4 bus fd) s)

/-- FRAME_CODE14 (R78, R96). -/
def execFrameCode14 (bus : BusId) (fd : Bool) (s : State) : Host.Outcome State Fault Refusal :=
  .next (showFrameHead (frameByte0 14#4 bus fd) s)

/-- FRAME_CODE15 (R78, R96). -/
def execFrameCode15 (bus : BusId) (fd : Bool) (s : State) : Host.Outcome State Fault Refusal :=
  .next (showFrameHead (frameByte0 15#4 bus fd) s)

end Sys2Proof.Machine
end

