-- ==== Sys2Proof/Machine/Flags.lean ====
section
/-! DEFINITION. The status values a caller sees and the response words that carry them (R37, R92 to R94). -/

namespace Sys2Proof.Machine

/-- RD_PENDING = (RD.filled > 0) (R37). -/
def rdPending (rd : RdState) : Bool := decide (0 < rd.filled)

/-- WR_PENDING = (WR.needed > 0) (R37). -/
def wrPending (wr : WrState) : Bool := decide (0 < wr.needed)

/-- The READ response word: COUNT in bits LEN_FIELD_BITS-1:0, RD_PENDING in bit LEN_FIELD_BITS (R94). -/
def readResponse (lfb count : Nat) (pending : Bool) : Nat := count + 2 ^ lfb * pending.toNat

/-- The WRITE response word (R93): RESUME_USB bit 0, RESUME_SPI bit 1, WR_PENDING bit 2, WR_REJECT bit 3. -/
def writeResponse (resumeUsb resumeSpi pending reject : Bool) : Nat :=
  resumeUsb.toNat + 2 * resumeSpi.toNat + 4 * pending.toNat + 8 * reject.toNat

/-- The RESET response word (R94). -/
def resetResponse : Nat := 0

/-- The states of the read side, derived from RD.filled (R30). -/
inductive RdMode where
  | idle
  | drain
  deriving DecidableEq, Repr

/-- The states of the write side, derived from WR.reject and WR.needed (R31). -/
inductive WrMode where
  | idle
  | partialFrame
  | reject
  deriving DecidableEq, Repr

/-- Which state the read side is in (R30). -/
def rdMode (rd : RdState) : RdMode := if rd.filled = 0 then .idle else .drain

/-- Which state the write side is in (R31). -/
def wrMode (wr : WrState) : WrMode :=
  if wr.reject then .reject else if wr.needed = 0 then .idle else .partialFrame

end Sys2Proof.Machine
end

