-- ==== Sys2Proof/Machine/Read.lean ====
section
/-! DEFINITION. READ: frames to byte stream (R100 to R117). -/

namespace Sys2Proof.Machine

/-- Step 1: deliver a pending tail and shift what is left to the front of RD.buf (R102, R103). The answer is `pos`. -/
def readDrain (cap : Nat) (s : State) : Except Abort (Nat × State) :=
  if s.rd.filled = 0 then .ok (0, s)
  else
    let k := min cap s.rd.filled
    match bufRead s.cfg s.rd.buf 0 k, bufRead s.cfg s.rd.buf k (s.rd.filled - k) with
    | .ok front, .ok tail =>
      match bufWrite s.cfg s.rd.buf 0 tail with
      | .ok buf => .ok (k, { deliver 0 front s with rd := ⟨buf, s.rd.filled - k⟩ })
      | .error e => .error e
    | .error e, _ => .error e
    | _, .error e => .error e

/-- A popped frame that does not fit: its prefix fills the destination, its suffix goes to RD.buf (R107). -/
def readSplit (cap pos : Nat) (bytes : List Byte) (s : State) : Except Abort (Nat × State) :=
  match bufWrite s.cfg s.rd.buf 0 (bytes.drop (cap - pos)) with
  | .ok buf =>
    .ok (cap, { deliver pos (bytes.take (cap - pos)) s with rd := ⟨buf, bytes.length - (cap - pos)⟩ })
  | .error e => .error e

/-- Steps 2 and 3: pop frames while there is room (R105 to R108). Every popped frame takes at least one byte of the
destination, so `cap - pos` rounds of fuel suffice. -/
def readPops (cap : Nat) : Nat → Nat → State → Except Abort (Nat × State)
  | 0, pos, s => .ok (pos, s)
  | fuel + 1, pos, s =>
    if cap ≤ pos then .ok (pos, s)
    else
      match pop s with
      | (none, t) => .ok (pos, t)
      | (some f, t) =>
        let t := emit (.pop f.bytes) t
        if fld s.cfg f.b0 ≠ some f.bytes.length then .error (.raised (.rxCorrupt f.b0) t)
        else if pos + f.bytes.length ≤ cap then
          readPops cap fuel (pos + f.bytes.length) (deliver pos f.bytes t)
        else readSplit cap pos f.bytes t

/-- The body of READ up to its response: COUNT and the state (R101). Pops only if nothing is pending after step 1
(R104). -/
def readBody (cap : Nat) (s : State) : Except Abort (Nat × State) :=
  match readDrain cap s with
  | .error e => .error e
  | .ok (pos, s) => if s.rd.filled = 0 then readPops cap (cap - pos) pos s else .ok (pos, s)

/-- Step 4: the response (R94, R109). -/
def readRespond (count : Nat) (s : State) : State :=
  respond (readResponse s.cfg.lenFieldBits count (rdPending s.rd)) s

/-- READ (R101). -/
def execRead (cap : Nat) (s : State) : Host.Outcome State Fault Refusal :=
  if s.sessionOpen = false then .next (raise .noSession s)
  else
    conclude <|
      match readBody cap s with
      | .ok (count, s) => .ok (readRespond count s)
      | .error e => .error e

end Sys2Proof.Machine
end

