-- ==== Sys2Proof/Machine/SessionReset.lean ====
section
/-! DEFINITION. RESET: the session reset (R185 to R194). -/

namespace Sys2Proof.Machine

/-- RESET (R186): the three counters and WR.reject are cleared, the session is open; the buffers' bytes stay (R187,
R188) and nothing else is touched (R192). -/
def execReset (s : State) : Host.Outcome State Fault Refusal :=
  .next (respond resetResponse
    { s with
      rd := { s.rd with filled := 0 }
      wr := { s.wr with filled := 0, needed := 0, reject := false }
      sessionOpen := true })

end Sys2Proof.Machine
end

