-- ==== Sys2Proof/Machine/Admission.lean ====
section
/-! DEFINITION. TAN, the transmit admission notifier, step 3 of WRITE (R170 to R178). -/

namespace Sys2Proof.Machine

/-- The threshold of a transport kind (R9). -/
def threshold (cfg : Config) : TransportKind → Nat
  | .usb => cfg.tUsb
  | .spi => cfg.tSpi

/-- One check: query, compare "at least", signal (R171, R172). -/
def tanCheck (k : TransportKind) (s : State) : Bool × State :=
  let (free, s) := freeSlots k s
  let fire := decide (threshold s.cfg k ≤ free)
  (fire, { s with history := s.history ++ (if fire then [.resume k] else []) })

/-- TAN(): the USB check, then the SPI check (R171, R174). The answer is (RESUME_USB, RESUME_SPI) and the state. -/
def tan (s : State) : (Bool × Bool) × State :=
  let (ru, s) := tanCheck .usb s
  let (rs, s) := tanCheck .spi s
  ((ru, rs), s)

end Sys2Proof.Machine
end

