-- ==== Sys2Proof/Machine/Write.lean ====
section
/-! DEFINITION. WRITE: byte stream to frames (R130 to R152). -/

namespace Sys2Proof.Machine

/-- A trailing partial frame of total length `n`: its bytes go to the front of WR.buf (R139). -/
def keepPartial (n : Nat) (src : List Byte) (s : State) : Except Abort State :=
  match bufWrite s.cfg s.wr.buf 0 src with
  | .ok buf => .ok { s with wr := { s.wr with buf := buf, filled := src.length, needed := n - src.length } }
  | .error e => .error e

/-- An unrecognised code at a frame boundary: the event, and the write side rejects from now on (R137). -/
def rejectStream (b0 : Byte) (s : State) : State :=
  let s := emit (.corruptStream b0) s
  { s with wr := { s.wr with reject := true } }

/-- Step 2: cut the rest of the input into frames (R136 to R139). Every frame takes at least one byte, so as many
rounds of fuel as there are bytes suffice. -/
def writeCut : Nat → List Byte → State → Except Abort State
  | 0, _, s => .ok s
  | _ + 1, [], s => .ok s
  | fuel + 1, b0 :: rest, s =>
    let src := b0 :: rest
    match fld s.cfg b0 with
    | none => .ok (rejectStream b0 s)
    | some n =>
      if n ≤ src.length then writeCut fuel (src.drop n) (submit b0 (src.take n) s)
      else keepPartial n src s

/-- Step 1, completion: the missing bytes join the partial frame, which is submitted, and both counters are cleared
(R133, R134). -/
def writeComplete (src : List Byte) (s : State) : Except Abort State :=
  match bufWrite s.cfg s.wr.buf s.wr.filled (src.take s.wr.needed) with
  | .error e => .error e
  | .ok buf =>
    match bufRead s.cfg buf 0 (s.wr.filled + s.wr.needed) with
    | .error e => .error e
    | .ok bytes =>
      let s := submit (buf.read 0) bytes s
      .ok { s with wr := { s.wr with buf := buf, filled := 0, needed := 0 } }

/-- Step 1, still incomplete: all the input joins the partial frame (R135). -/
def writeExtend (src : List Byte) (s : State) : Except Abort State :=
  match bufWrite s.cfg s.wr.buf s.wr.filled src with
  | .error e => .error e
  | .ok buf =>
    .ok { s with wr := { s.wr with
            buf := buf, filled := s.wr.filled + src.length, needed := s.wr.needed - src.length } }

/-- The step 1 path of R135, after which the `incomplete` flag of R131 is set. -/
def writeIncomplete (src : List Byte) (wr : WrState) : Bool :=
  !wr.reject && decide (src.length < wr.needed)

/-- Steps 1 and 2 (R131, R132). -/
def writeBody (src : List Byte) (s : State) : Except Abort State :=
  if s.wr.reject then .ok s
  else if s.wr.needed = 0 then writeCut src.length src s
  else if src.length < s.wr.needed then writeExtend src s
  else
    match writeComplete src s with
    | .error e => .error e
    | .ok s' => writeCut src.length (src.drop s.wr.needed) s'

/-- Step 3 and the response (R93, R131, R140): TAN runs unless the path was incomplete and NOTIFY_ON_INCOMPLETE is
false (R178). -/
def writeFinish (incomplete : Bool) (s : State) : State :=
  let r := if !incomplete || s.cfg.notifyOnIncomplete then tan s else ((false, false), s)
  respond (writeResponse r.1.1 r.1.2 (wrPending r.2.wr) r.2.wr.reject) r.2

/-- WRITE (R131). -/
def execWrite (src : List Byte) (s : State) : Host.Outcome State Fault Refusal :=
  if s.sessionOpen = false then .next (raise .noSession s)
  else
    conclude <|
      match writeBody src s with
      | .ok t => .ok (writeFinish (writeIncomplete src s.wr) t)
      | .error e => .error e

end Sys2Proof.Machine
end

