-- ==== Sys2Proof/Machine/Dispatch.lean ====
section
/-! DEFINITION. exec: one arm per constructor of Instr, each one direct call of its meaning. -/

namespace Sys2Proof.Machine

def exec (i : Instr) (s : State) : Host.Outcome State Fault Refusal :=
  match i with
  | .read cap => Sys2Proof.Machine.execRead cap s
  | .write src => Sys2Proof.Machine.execWrite src s
  | .reset => Sys2Proof.Machine.execReset s
  | .frameCode0 bus fd => Sys2Proof.Machine.execFrameCode0 bus fd s
  | .frameCode1 bus fd => Sys2Proof.Machine.execFrameCode1 bus fd s
  | .frameCode2 bus fd => Sys2Proof.Machine.execFrameCode2 bus fd s
  | .frameCode3 bus fd => Sys2Proof.Machine.execFrameCode3 bus fd s
  | .frameCode4 bus fd => Sys2Proof.Machine.execFrameCode4 bus fd s
  | .frameCode5 bus fd => Sys2Proof.Machine.execFrameCode5 bus fd s
  | .frameCode6 bus fd => Sys2Proof.Machine.execFrameCode6 bus fd s
  | .frameCode7 bus fd => Sys2Proof.Machine.execFrameCode7 bus fd s
  | .frameCode8 bus fd => Sys2Proof.Machine.execFrameCode8 bus fd s
  | .frameCode9 bus fd => Sys2Proof.Machine.execFrameCode9 bus fd s
  | .frameCode10 bus fd => Sys2Proof.Machine.execFrameCode10 bus fd s
  | .frameCode11 bus fd => Sys2Proof.Machine.execFrameCode11 bus fd s
  | .frameCode12 bus fd => Sys2Proof.Machine.execFrameCode12 bus fd s
  | .frameCode13 bus fd => Sys2Proof.Machine.execFrameCode13 bus fd s
  | .frameCode14 bus fd => Sys2Proof.Machine.execFrameCode14 bus fd s
  | .frameCode15 bus fd => Sys2Proof.Machine.execFrameCode15 bus fd s

end Sys2Proof.Machine
end

