-- ==== Sys2Proof/Machine/Issue.lean ====
section
/-! DEFINITION. What one step does: the configuration check (R208), quiescence after a model fault (R201), and the next
move of the surroundings (R214), a transaction among them (R83, R88, R206). -/

namespace Sys2Proof.Machine

/-- One wire at the block (R206: decode first). An illegal command word raises IllegalCommand and runs nothing (R203);
a WRITE whose bytes are not all delivered has no move yet and stays pending (R85, R221). `s` still holds the wire. -/
def issueWire (w : Wire) (rest : List Input) (s : State) : Host.Outcome State Fault Refusal :=
  match decode s.cfg.lenFieldBits w, w with
  | .ok i, _ => exec i { s with agenda := rest }
  | .error .dataPending, _ => .next s
  | .error .illegalOp, .command word _ => .next (raise (.illegalCommand word) { s with agenda := rest })
  | .error .reservedBits, .command word _ => .next (raise (.illegalCommand word) { s with agenda := rest })
  | .error .resetWithLen, .command word _ => .next (raise (.illegalCommand word) { s with agenda := rest })
  | .error why, _ => .refused (.malformedRequest why)

/-- The next move (log 9): none pending leaves the block idle. -/
def issueInput (s : State) : Host.Outcome State Fault Refusal :=
  match s.agenda with
  | [] => .next s
  | .wire w :: rest => issueWire w rest s
  | .canRx f :: rest => .next (arrive [f] { s with agenda := rest })
  | .slots usb spi :: rest => .next (setSlots usb spi { s with agenda := rest })

/-- One step: no run of a configuration that breaks R9 (R208); no step from a faulted state (R201). -/
def issue (s : State) : Host.Outcome State Fault Refusal :=
  match configFault s.cfg with
  | some r => .refused (.configInvalid r)
  | none => if s.faults = [] then issueInput s else .fault .quiescent

/-- `s` with the wire of an opcode-table row as the next move (log 9, log 18). -/
def placeTableWord (s : State) (nbits w : Nat) : State :=
  { s with agenda := .wire (tableWire s.cfg.lenFieldBits nbits w) :: s.agenda }

end Sys2Proof.Machine
end

