-- ==== Sys2Proof/Machine/Step.lean ====
section
/-! DEFINITION. The step function and the placing of an opcode-table row before it. -/

namespace Sys2Proof.Machine

/-- One atomic step of the machine (R58). -/
def step (s : State) : Host.Outcome State Fault Refusal := issue s

/-- `s` with the instruction of `nbits` bits `w` where step takes its next one. -/
def State.withFetchWord (s : State) (nbits w : Nat) : State := placeTableWord s nbits w

end Sys2Proof.Machine
end

