-- ==== Sys2Proof/Machine/Operands.lean ====
section
/-! DEFINITION. The field view of a frame: header byte 0, the packed 32-bit field, the checksum and the payload (R71
to R75). No operation reads these fields but CODE and BUS (R76); they say how the frames of a stream are built. -/

namespace Sys2Proof.Machine

/-- The fields of a frame (R72 to R75). -/
structure FrameFields where
  code : Code
  bus : BusId
  fd : Bool
  address : BitVec 29
  extended : Bool
  returned : Bool
  rejected : Bool
  payload : List Byte
  deriving DecidableEq, Repr

/-- The packed field F = (address << 3) | (extended << 2) | (returned << 1) | rejected (R73). -/
def FrameFields.packed (f : FrameFields) : BitVec 32 :=
  f.address ++ BitVec.ofBool f.extended ++ BitVec.ofBool f.returned ++ BitVec.ofBool f.rejected

/-- A 32-bit field as four bytes, byte 1 of the frame holding bits 7:0 (R54, R73). Log 20. -/
def fieldBytes (v : BitVec 32) : List Byte :=
  [v.extractLsb' 0 8, v.extractLsb' 8 8, v.extractLsb' 16 8, v.extractLsb' 24 8]

/-- The packed field of a frame's bytes 1 to 4 (R54, R73). Log 20. -/
def packedField (b1 b2 b3 b4 : Byte) : BitVec 32 := b4 ++ b3 ++ b2 ++ b1

/-- XOR of a list of bytes. -/
def xorBytes (bs : List Byte) : Byte := bs.foldl (· ^^^ ·) 0#8

/-- The checksum: XOR of header bytes 0 to 4 and all payload bytes (R74). -/
def checksum (head payload : List Byte) : Byte := xorBytes head ^^^ xorBytes payload

/-- Header bytes 0 to 4 (R72, R73). -/
def FrameFields.head (f : FrameFields) : List Byte := frameByte0 f.code f.bus f.fd :: fieldBytes f.packed

/-- The frame's wire bytes in order (R71). -/
def FrameFields.toFrame (f : FrameFields) : Frame :=
  ⟨frameByte0 f.code f.bus f.fd, fieldBytes f.packed ++ checksum f.head f.payload :: f.payload⟩

end Sys2Proof.Machine
end

