-- ==== Sys2Proof/Machine/Pseudo.lean ====
section
/-! DEFINITION. The pseudo-operations DRAIN, SEND and SPLIT of R95 as the operations they expand to, and the running of
a sequence of operations. Log 21. -/

namespace Sys2Proof.Machine

/-- SEND: one WRITE of the concatenated frames (R95). -/
def sendOp (frames : List (List Byte)) : Instr := .write frames.flatten

/-- The chunks of SPLIT: `k` bytes each, the last one shorter; for k ≥ 1 as many rounds of fuel as there are bytes
suffice. DESIGN CHOICE, log 21: for k = 0, which the spec gives no expansion (chunks of no bytes never cover the bytes),
these are as many empty chunks as `fuel` has rounds, here one for every byte. -/
def splitChunks (k : Nat) : Nat → List Byte → List (List Byte)
  | 0, _ => []
  | _ + 1, [] => []
  | fuel + 1, b :: bs => (b :: bs).take k :: splitChunks k fuel ((b :: bs).drop k)

/-- SPLIT: consecutive WRITEs of `k` bytes each, covering the bytes in order (R95). With k = 0, where the spec has no
expansion, one empty WRITE for every byte: DESIGN CHOICE, log 21. -/
def splitOps (k : Nat) (bs : List Byte) : List Instr := (splitChunks k bs.length bs).map .write

/-- COUNT of the last READ's response word (R94). -/
def countOf (s : State) : Nat :=
  match s.response with
  | some w => bits w (s.cfg.lenFieldBits - 1) 0
  | none => 0

/-- The destination bytes the last READ returned, D[0..COUNT) (R51). -/
def returned (s : State) : List Byte := s.dst.readRange 0 (countOf s)

/-- DRAIN: READ repeated until one returns COUNT < C (R95). `fuel` bounds the repetitions: with C = 0 no READ ever
returns less than C. -/
def drain (cap : Nat) : Nat → State → Host.Outcome State Fault Refusal
  | 0, s => .next s
  | fuel + 1, s =>
    match exec (.read cap) s with
    | .next t => if countOf t < cap then .next t else drain cap fuel t
    | o => o

/-- Operations in the order the transport issues them (R59). -/
def execAll : List Instr → State → Host.Outcome State Fault Refusal
  | [], s => .next s
  | i :: is, s =>
    match exec i s with
    | .next t => execAll is t
    | o => o

/-- READs with the given capacities, in order: the concatenation of the bytes they return and the state after them,
if every one of them answers a next state. -/
def readAll : List Nat → State → Option (List Byte × State)
  | [], s => some ([], s)
  | c :: cs, s =>
    match exec (.read c) s with
    | .next t => (readAll cs t).map fun p => (returned t ++ p.1, p.2)
    | _ => none

end Sys2Proof.Machine
end

