-- ==== Sys2Proof/Safety.lean ====
section
/-! DEFINITION. The terms claims are stated in: what the two buffers hold, what a history shows, the cut of a stream into
frames, the invariants of R32 to R34, power-on, and what a safe run is. -/

namespace Sys2Proof.Machine

/-! ## What the buffers hold -/

/-- RD.buf[0..RD.filled): the undelivered tail of a popped frame (R21). -/
def RdState.held (rd : RdState) : List Byte := rd.buf.readRange 0 rd.filled

/-- WR.buf[0..WR.filled): the bytes received of the frame being assembled (R23). -/
def WrState.held (wr : WrState) : List Byte := wr.buf.readRange 0 wr.filled

/-! ## What a history shows -/

/-- The frame of a Pop event. -/
def Event.popped? : Event → Option (List Byte)
  | .pop bs => some bs
  | _ => none

/-- The frame and bus of a Submit event. -/
def Event.submitted? : Event → Option (List Byte × BusId)
  | .submit bs bus => some (bs, bus)
  | _ => none

/-- The transport of a Resume event. -/
def Event.resumed? : Event → Option TransportKind
  | .resume k => some k
  | _ => none

/-- Whether an event is a Pop. Every other event belongs to the history a run shows (00_scope.md R15 (b)). -/
def Event.isPop : Event → Bool
  | .pop _ => true
  | _ => false

/-- The Submit, Resume and CorruptStream events, in the order they stand in `H` (00_scope.md R15 (b)). -/
def shownEvents (h : List Event) : List Event := h.filter fun e => !e.isPop

/-- The frames popped, in order. -/
def poppedFrames (h : List Event) : List (List Byte) := h.filterMap Event.popped?

/-- The frames submitted with their bus ids, in order. -/
def submittedFrames (h : List Event) : List (List Byte × BusId) := h.filterMap Event.submitted?

/-- The resume signals, in order. -/
def resumeSignals (h : List Event) : List TransportKind := h.filterMap Event.resumed?

/-- The most recently popped frame. -/
def lastPopped (h : List Event) : Option (List Byte) := (poppedFrames h).getLast?

/-- The Submit event of a frame: its bytes, and the bus id of its byte 0 (R134). -/
def submitEvent : List Byte → Event
  | [] => .submit [] 0#3
  | b0 :: rest => .submit (b0 :: rest) (busOf b0)

/-! ## The environment's answers -/

/-- What FreeSlots(USB) answers the next TAN (R171). -/
def usbAnswer (s : State) : Nat := (freeSlots .usb s).1

/-- What FreeSlots(SPI) answers the next TAN, which asks for USB before (R174). -/
def spiAnswer (s : State) : Nat := (freeSlots .spi (freeSlots .usb s).2).1

/-! ## Frames and streams -/

/-- `bs` is one frame: its length is FLD of its byte 0 (R71, R78). -/
def IsFrame (cfg : Config) : List Byte → Prop
  | [] => False
  | b0 :: rest => fld cfg b0 = some (rest.length + 1)

/-- No complete frame stands at the front of `bs`: nothing is there, or too few bytes for the frame that begins there,
or a code that FLD does not recognise. -/
def NoFrameYet (cfg : Config) : List Byte → Prop
  | [] => True
  | b0 :: rest => ∀ n, fld cfg b0 = some n → rest.length + 1 < n

/-- `bs` begins with a byte whose code FLD does not recognise (R79). -/
def Unrecognised (cfg : Config) : List Byte → Prop
  | [] => False
  | b0 :: _ => fld cfg b0 = none

/-- The cut of a stream from its start into consecutive frames by FLD, and what is left (R61, R82). -/
structure IsCut (cfg : Config) (stream : List Byte) (frames : List (List Byte)) (rest : List Byte) : Prop where
  whole : stream = frames.flatten ++ rest
  frame : ∀ bs ∈ frames, IsFrame cfg bs
  stop : NoFrameYet cfg rest

/-- The concatenation of frames as wire bytes. -/
def wireBytes (fs : List Frame) : List Byte := (fs.map Frame.bytes).flatten

/-- The Pop events of frames, in order. -/
def popEvents (fs : List Frame) : List Event := fs.map fun f => .pop f.bytes

/-- A frame of the receive queue as the Frame Queue must deliver it (R216). -/
def Frame.Ok (cfg : Config) (f : Frame) : Prop := fld cfg f.b0 = some f.bytes.length

/-- The receive queue, and every frame that may still arrive, is well formed (R216). -/
def QueueOk (s : State) : Prop :=
  (∀ f ∈ s.rxq, f.Ok s.cfg) ∧ ∀ fs ∈ s.arrivals, ∀ f ∈ fs, f.Ok s.cfg

/-- The configuration satisfies R9. -/
abbrev ConfigOk (cfg : Config) : Prop := configFault cfg = none

/-! ## Invariants -/

/-- R32: RD.filled ≤ 69, and a pending tail is a non-empty proper suffix of the most recently popped frame (R21). -/
structure RdInv (s : State) : Prop where
  bound : s.rd.filled ≤ maxFrame - 1
  tail : 0 < s.rd.filled →
    ∃ bs r, lastPopped s.history = some bs ∧ 1 ≤ r ∧ r < bs.length ∧ s.rd.held = bs.drop r

/-- R33 and R34. -/
structure WrInv (s : State) : Prop where
  counters : (s.wr.filled = 0 ∧ s.wr.needed = 0) ∨
    (1 ≤ s.wr.filled ∧ 1 ≤ s.wr.needed ∧ fld s.cfg (s.wr.buf.read 0) = some (s.wr.filled + s.wr.needed))
  reject : s.wr.reject = true → s.wr.filled = 0 ∧ s.wr.needed = 0

/-- Every memory keeps its canonical form, and the buffers list no address outside 0..OVF_CAP-1 (R50). -/
structure MemInv (s : State) : Prop where
  rdWf : s.rd.buf.wf
  rdIn : ∀ c ∈ s.rd.buf, c.1 < s.cfg.ovfCap
  wrWf : s.wr.buf.wf
  wrIn : ∀ c ∈ s.wr.buf, c.1 < s.cfg.ovfCap
  dstWf : s.dst.wf

/-- The invariant of a run: the memories' form always, R32 to R34 once a RESET has opened the session. -/
structure Inv (s : State) : Prop where
  mem : MemInv s
  rd : s.sessionOpen = true → RdInv s
  wr : s.sessionOpen = true → WrInv s

/-! ## Power-on and safe runs -/

/-- A power-on state: session_open is 0, `H` and `faults` are empty, every block register holds any value (R240). -/
structure AtPowerOn (s : State) : Prop where
  session : s.sessionOpen = false
  history : s.history = []
  faults : s.faults = []

/-- No model fault has been raised: a run that faults supports no claim (R201). -/
def Safe (s : State) : Prop := s.faults = []

/-- The state a step answers, if it answers one. -/
def nextState : Host.Outcome State Fault Refusal → Option State
  | .next s => some s
  | _ => none

/-- An outcome with its next state changed by `f`; a fault and a refusal stay. -/
def mapNext (f : State → State) :
    Host.Outcome State Fault Refusal → Host.Outcome State Fault Refusal
  | .next s => .next (f s)
  | .fault r => .fault r
  | .refused r => .refused r

/-- A state of a run in an open session: a legal configuration, the invariant, session_open = 1. -/
structure Ready (s : State) : Prop where
  cfg : ConfigOk s.cfg
  inv : Inv s
  session : s.sessionOpen = true

/-- A byte-by-byte copy of `n` bytes in ascending index order (R56). -/
def copyAscending (m : Memory) (src dst : Nat) : Nat → Memory
  | 0 => m
  | n + 1 => copyAscending (m.write dst [m.read src]) (src + 1) (dst + 1) n

end Sys2Proof.Machine
end

