-- ==== Sys2Proof/Certificates/Slice0/Obligations.lean ====
section
/-! DEFINITION. The statements for the provers, each a proposition about the model; OBLIGATIONS.json lists them. -/

open Sys2Proof Sys2Proof.Machine

/-! ## Encoding and decoding -/

/-- Decoding what the encoder gives for a well-formed instruction gives that instruction back: every instruction,
every operand, every width of the LEN field (30_encoding.md sections 2 and 4; the encoder is the model's). -/
def Obligations.DecodeOfEncodeIsIdentity : Prop :=
  ∀ (lfb : Nat) (i : Instr), i.wf lfb = true → decode lfb (encode i) = .ok i

/-- What the decoder reads, the encoder writes back, and it is well formed: no two wires are one instruction
(30_encoding.md sections 2 and 4). -/
def Obligations.EncodeOfDecodeIsIdentity : Prop :=
  ∀ (lfb : Nat) (w : Wire) (i : Instr), decode lfb w = .ok i → encode i = w ∧ i.wf lfb = true

/-- Words written out from 95_test_vectors.md section 4 (CV-01 to CV-13) and first bytes of section 2. -/
def Obligations.SpecWordsDecode : Prop :=
  decode 24 (.command 0x00004001 []) = .ok (.read 64) ∧
  decode 24 (.command 0xFFFFFF01 []) = .ok (.read 16777215) ∧
  decode 24 (.command 0x00000202 [0x12#8, 0xF8#8]) = .ok (.write [0x12#8, 0xF8#8]) ∧
  decode 24 (.command 0x00000003 []) = .ok .reset ∧
  decode 24 (.command 0x00000000 []) = .error .illegalOp ∧
  decode 24 (.command 0x00000103 []) = .error .resetWithLen ∧
  decode 24 (.command 0x00004005 []) = .error .reservedBits ∧
  decode 24 (.command 0x0000000B []) = .error .reservedBits ∧
  decode 24 (.frameHead 0x12#8) = .ok (.frameCode1 1#3 false) ∧
  decode 24 (.frameHead 0xF1#8) = .ok (.frameCode15 0#3 true) ∧
  decode 24 (.frameHead 0x1E#8) = .ok (.frameCode1 7#3 false)

/-- Of the command words, those of R87 raise IllegalCommand and change nothing else of the block, and every other one
is some operation once its data bytes are there. The words are the spec's own (92_eei_decisions.md D2, D20); that a
fault is a next state with its record is log 10. -/
def Obligations.IllegalCommandWordsRaise : Prop :=
  ∀ (s : State) (word : Nat) (data : List Byte) (rest : List Input), ConfigOk s.cfg → s.faults = [] →
    s.agenda = .wire (.command word data) :: rest → word < 2 ^ (8 + s.cfg.lenFieldBits) →
    (IllegalCommandWord s.cfg.lenFieldBits word →
      step s = .next { s with agenda := rest, faults := [.illegalCommand word], response := none }) ∧
    (¬ IllegalCommandWord s.cfg.lenFieldBits word →
      ∃ data' i, decode s.cfg.lenFieldBits (.command word data') = .ok i)

/-- Under a legal configuration FLD answers a total length in [6, 70] or none, and it reads nothing but CODE
(00_scope.md section 4, 30_encoding.md section 3). -/
def Obligations.FldAnswersWithinFrameBounds : Prop :=
  ∀ (cfg : Config) (b0 : Byte), ConfigOk cfg →
    (∀ n, fld cfg b0 = some n → minFrame ≤ n ∧ n ≤ maxFrame) ∧
    (∀ b1 : Byte, codeOf b1 = codeOf b0 → fld cfg b1 = fld cfg b0)

/-- FLD with the default table, at the ends of its range and at codes 8 and 9. The table is the CAN FD one: PRESUMED,
log 5 (93_implementation_defined.md G1). -/
def Obligations.DefaultTableLengths : Prop :=
  fld defaultConfig 0x00#8 = some 6 ∧ fld defaultConfig 0x8F#8 = some 14 ∧ fld defaultConfig 0x80#8 = some 14 ∧
  fld defaultConfig 0x90#8 = some 18 ∧ fld defaultConfig 0xF0#8 = some 70

/-- Each FRAME_CODE row completes in every state: FLD answers 6 + LEN_TABLE[code], or none where the table has none,
whatever BUS and FD are, and nothing else changes (R78; the field that holds the answer is the model's, log 8). -/
def Obligations.FrameCodesAnswerTheirLength : Prop :=
  ∀ (s : State) (bus : BusId) (fd : Bool),
    exec (.frameCode0 bus fd) s = .next { s with fldAnswer := some ((lenOf s.cfg 0#4).map (headSize + ·)) } ∧
    exec (.frameCode1 bus fd) s = .next { s with fldAnswer := some ((lenOf s.cfg 1#4).map (headSize + ·)) } ∧
    exec (.frameCode2 bus fd) s = .next { s with fldAnswer := some ((lenOf s.cfg 2#4).map (headSize + ·)) } ∧
    exec (.frameCode3 bus fd) s = .next { s with fldAnswer := some ((lenOf s.cfg 3#4).map (headSize + ·)) } ∧
    exec (.frameCode4 bus fd) s = .next { s with fldAnswer := some ((lenOf s.cfg 4#4).map (headSize + ·)) } ∧
    exec (.frameCode5 bus fd) s = .next { s with fldAnswer := some ((lenOf s.cfg 5#4).map (headSize + ·)) } ∧
    exec (.frameCode6 bus fd) s = .next { s with fldAnswer := some ((lenOf s.cfg 6#4).map (headSize + ·)) } ∧
    exec (.frameCode7 bus fd) s = .next { s with fldAnswer := some ((lenOf s.cfg 7#4).map (headSize + ·)) } ∧
    exec (.frameCode8 bus fd) s = .next { s with fldAnswer := some ((lenOf s.cfg 8#4).map (headSize + ·)) } ∧
    exec (.frameCode9 bus fd) s = .next { s with fldAnswer := some ((lenOf s.cfg 9#4).map (headSize + ·)) } ∧
    exec (.frameCode10 bus fd) s = .next { s with fldAnswer := some ((lenOf s.cfg 10#4).map (headSize + ·)) } ∧
    exec (.frameCode11 bus fd) s = .next { s with fldAnswer := some ((lenOf s.cfg 11#4).map (headSize + ·)) } ∧
    exec (.frameCode12 bus fd) s = .next { s with fldAnswer := some ((lenOf s.cfg 12#4).map (headSize + ·)) } ∧
    exec (.frameCode13 bus fd) s = .next { s with fldAnswer := some ((lenOf s.cfg 13#4).map (headSize + ·)) } ∧
    exec (.frameCode14 bus fd) s = .next { s with fldAnswer := some ((lenOf s.cfg 14#4).map (headSize + ·)) } ∧
    exec (.frameCode15 bus fd) s = .next { s with fldAnswer := some ((lenOf s.cfg 15#4).map (headSize + ·)) }

/-- The field view of a built frame. Bytes 1 to 4 are the 32-bit field F with byte 1 its bits 7:0, and in F ADDRESS is
bits 31:3, EXTENDED bit 2, RETURNED bit 1, REJECTED bit 0; byte 5 is the XOR of every other byte. The little-endian order
is the spec's own decision (92_eei_decisions.md D15, log 20). -/
def Obligations.BuiltFramesHoldTheirFields : Prop :=
  ∀ f : FrameFields, ∃ (b0 b1 b2 b3 b4 b5 : Byte) (F : BitVec 32),
    f.toFrame.bytes = b0 :: b1 :: b2 :: b3 :: b4 :: b5 :: f.payload ∧
    codeOf b0 = f.code ∧ busOf b0 = f.bus ∧ fdOf b0 = f.fd ∧
    b1 = F.extractLsb' 0 8 ∧ b2 = F.extractLsb' 8 8 ∧ b3 = F.extractLsb' 16 8 ∧ b4 = F.extractLsb' 24 8 ∧
    packedField b1 b2 b3 b4 = F ∧
    F.extractLsb' 3 29 = f.address ∧ F.getLsbD 2 = f.extended ∧ F.getLsbD 1 = f.returned ∧
    F.getLsbD 0 = f.rejected ∧
    b5 = b0 ^^^ b1 ^^^ b2 ^^^ b3 ^^^ b4 ^^^ xorBytes f.payload ∧ xorBytes f.toFrame.bytes = 0#8

/-! ## The step -/

/-- A wire that decodes runs as its instruction: step takes the request from the agenda and is exec of it (the agenda
is the model's form of the transport's requests, log 9). -/
def Obligations.StepRunsDecodedInstruction : Prop :=
  ∀ (s : State) (w : Wire) (rest : List Input) (i : Instr), ConfigOk s.cfg → s.faults = [] →
    s.agenda = .wire w :: rest → decode s.cfg.lenFieldBits w = .ok i → step s = exec i { s with agenda := rest }

/-- A WRITE of which fewer than L bytes have been delivered has no move: the state stays (30_encoding.md rule on the
data side, 60_exceptions.md section 6; that waiting is a step which changes nothing is log 9). -/
def Obligations.WriteWaitsForItsData : Prop :=
  ∀ (s : State) (word : Nat) (data : List Byte) (rest : List Input), ConfigOk s.cfg → s.faults = [] →
    s.agenda = .wire (.command word data) :: rest → word < 2 ^ (8 + s.cfg.lenFieldBits) →
    bits word 1 0 = 2 → bits word 7 2 = 0 → data.length < bits word (7 + s.cfg.lenFieldBits) 8 → step s = .next s

/-- The moves of the surroundings between operations: CAN-RX appends its frame behind the queue, CAN-TX leaves the
answers of the next FreeSlots queries (60_exceptions.md section 5; log 6, log 9). -/
def Obligations.SurroundingsMoveBetweenOperations : Prop :=
  ∀ (s : State) (rest : List Input), ConfigOk s.cfg → s.faults = [] →
    (∀ f, s.agenda = .canRx f :: rest → step s = .next { s with agenda := rest, rxq := s.rxq ++ [f] }) ∧
    (∀ u p, s.agenda = .slots u p :: rest →
      ∃ t, step s = .next t ∧ t = { s with agenda := rest, usbDraws := [u], spiDraws := [p] } ∧
        usbAnswer t = u ∧ spiAnswer t = p)

/-- From a state that holds a model-fault record the machine takes no further step (60_exceptions.md section 2, the
spec's decision D31; the stop's name is the model's, log 10). -/
def Obligations.FaultedStateTakesNoStep : Prop :=
  ∀ s : State, ConfigOk s.cfg → s.faults ≠ [] → step s = .fault .quiescent

/-- Exactly the configurations that break a constraint of the parameter table are refused (00_scope.md section 4,
60_exceptions.md section 2; log 12). -/
def Obligations.BadConfigurationsAreRefused : Prop :=
  ∀ s : State, (∃ r, step s = .refused (.configInvalid r)) ↔
    ¬ (72 ≤ s.cfg.ovfCap ∧ (∀ n, some n ∈ s.cfg.lenTable.toList → n ≤ 64) ∧
      some 64 ∈ s.cfg.lenTable.toList ∧ 7 ≤ s.cfg.lenFieldBits)

/-- The invariant holds after RESET: canonical memories inside the buffers, and R32 to R34 (the bytes and the
environment's side of that state are the model's, log 1, log 2). -/
def Obligations.InvariantHoldsAtReset : Prop := Inv State.reset

/-- Every step keeps the invariant: canonical memories inside the buffers, and the session invariants of 10_state.md
section 6, from every state that meets it. -/
def Obligations.InvariantIsKeptByEveryStep : Prop :=
  ∀ s t : State, Inv s → step s = .next t → Inv t

/-- Nothing is unwritten. No instruction, RESET included and from every state, one with records included, removes a
model-fault record or an event of the history. No step removes an event, closes an open session or writes the parameters
(10_state.md sections 4 and 9, 60_exceptions.md section 2). -/
def Obligations.BookkeepingOnlyGrows : Prop :=
  (∀ (i : Instr) (s t : State), exec i s = .next t → (∀ r ∈ s.faults, r ∈ t.faults) ∧ s.history <+: t.history) ∧
  ∀ s t : State, step s = .next t →
    s.history <+: t.history ∧ (s.sessionOpen = true → t.sessionOpen = true) ∧ t.cfg = s.cfg

/-! ## READ -/

/-- R102, R103, R104: a pending tail is delivered first. With C < RD.filled the READ pops nothing, answers C bytes and
keeps the rest of the tail at the front of RD.buf; otherwise the READ goes on to a next state, the whole tail stands at
the front of the destination, and the RD.filled bytes pending afterwards are the last bytes of the frames it popped, so
none where it popped none. -/
def Obligations.ReadDrainsThePendingTailFirst : Prop :=
  ∀ (s : State) (cap : Nat), Ready s → 0 < s.rd.filled →
    (cap < s.rd.filled → ∃ t, exec (.read cap) s = .next t ∧
      t.dst.readRange 0 cap = s.rd.held.take cap ∧ t.rd.filled = s.rd.filled - cap ∧
      t.rd.held = s.rd.held.drop cap ∧ t.history = s.history ∧ t.rxq = s.rxq ∧ t.arrivals = s.arrivals ∧
      t.response = some (readResponse s.cfg.lenFieldBits cap true)) ∧
    (s.rd.filled ≤ cap → ∃ t popped, exec (.read cap) s = .next t ∧
      t.dst.readRange 0 s.rd.filled = s.rd.held ∧ t.history = s.history ++ popEvents popped ∧
      t.rd.held <:+ wireBytes popped)

/-- R105: a destination that step 1 and the popped frames fill exactly ends the READ; no further frame is popped and
nothing stays pending. The order of the space test and the pop is the spec's own reading (92_eei_decisions.md D8). -/
def Obligations.ReadExactFitPopsNoFurther : Prop :=
  ∀ (s : State) (cap : Nat) (fs q : List Frame), Ready s → s.arrivals = [] → s.rxq = fs ++ q →
    (∀ f ∈ fs, f.Ok s.cfg) → s.rd.filled + (wireBytes fs).length = cap →
    ∃ t, exec (.read cap) s = .next t ∧ t.dst.readRange 0 cap = s.rd.held ++ wireBytes fs ∧
      t.rd.filled = 0 ∧ t.rxq = q ∧ t.history = s.history ++ popEvents fs ∧
      t.response = some (readResponse s.cfg.lenFieldBits cap false)

/-- R106 and R107: the frames `fs` fit behind the tail and are delivered whole, each at its place; the frame `f` does
not fit, so its prefix fills the destination, its suffix goes to the front of RD.buf and nothing further is popped. -/
def Obligations.ReadDeliversFittingFramesAndSplitsTheNext : Prop :=
  ∀ (s : State) (cap : Nat) (fs q : List Frame) (f : Frame), Ready s → s.arrivals = [] → s.rxq = fs ++ f :: q →
    (∀ g ∈ fs, g.Ok s.cfg) → f.Ok s.cfg →
    s.rd.filled + (wireBytes fs).length < cap → cap < s.rd.filled + (wireBytes fs).length + f.bytes.length →
    ∃ t, exec (.read cap) s = .next t ∧
      t.dst.readRange 0 (s.rd.filled + (wireBytes fs).length) = s.rd.held ++ wireBytes fs ∧
      t.dst.readRange (s.rd.filled + (wireBytes fs).length) (cap - (s.rd.filled + (wireBytes fs).length)) =
        f.bytes.take (cap - (s.rd.filled + (wireBytes fs).length)) ∧
      t.rd.held = f.bytes.drop (cap - (s.rd.filled + (wireBytes fs).length)) ∧
      t.rd.filled = f.bytes.length - (cap - (s.rd.filled + (wireBytes fs).length)) ∧
      1 ≤ t.rd.filled ∧ t.rd.filled ≤ maxFrame - 1 ∧
      t.rxq = q ∧ t.history = s.history ++ popEvents (fs ++ [f]) ∧
      t.response = some (readResponse s.cfg.lenFieldBits cap true)

/-- R108: where the queue runs empty before the destination is full, READ stops popping and COUNT is the number of
bytes written so far. -/
def Obligations.ReadStopsAtTheEmptyQueue : Prop :=
  ∀ (s : State) (cap : Nat), Ready s → s.arrivals = [] → (∀ f ∈ s.rxq, f.Ok s.cfg) →
    s.rd.filled + (wireBytes s.rxq).length < cap →
    ∃ t, exec (.read cap) s = .next t ∧
      t.dst.readRange 0 (s.rd.filled + (wireBytes s.rxq).length) = s.rd.held ++ wireBytes s.rxq ∧
      t.rd.filled = 0 ∧ t.rxq = [] ∧ t.history = s.history ++ popEvents s.rxq ∧
      t.response = some (readResponse s.cfg.lenFieldBits (s.rd.filled + (wireBytes s.rxq).length) false)

/-- R109: COUNT is the number of destination bytes written; it is C whenever bytes stay pending, and never more. The
bytes written are those of the tail and of the frames popped, in order, but for the bytes left pending, whatever arrives
between the pops. -/
def Obligations.ReadCountIsTheBytesWritten : Prop :=
  ∀ (s : State) (cap : Nat), Ready s → QueueOk s →
    ∃ t popped out, exec (.read cap) s = .next t ∧ t.history = s.history ++ popEvents popped ∧
      out ++ t.rd.held = s.rd.held ++ wireBytes popped ∧ t.dst = s.dst.write 0 out ∧
      t.response = some (readResponse s.cfg.lenFieldBits out.length (decide (0 < t.rd.filled))) ∧
      out.length ≤ cap ∧ (0 < t.rd.filled → out.length = cap)

/-- The READ response word: COUNT, the number of destination bytes written, in the bits below LEN_FIELD_BITS, RD_PENDING
in bit LEN_FIELD_BITS, nothing above (30_encoding.md section 5, the spec's decision D3). The bytes written, which the
word's COUNT reads back from the destination, are those of the tail and of the frames popped but for the bytes left
pending. -/
def Obligations.ReadResponseBits : Prop :=
  ∀ (s : State) (cap : Nat), Ready s → QueueOk s → cap < 2 ^ s.cfg.lenFieldBits →
    ∃ t w popped out, exec (.read cap) s = .next t ∧ t.response = some w ∧
      t.history = s.history ++ popEvents popped ∧ out ++ t.rd.held = s.rd.held ++ wireBytes popped ∧
      t.dst = s.dst.write 0 out ∧ out.length ≤ cap ∧
      bits w (s.cfg.lenFieldBits - 1) 0 = out.length ∧ w < 2 ^ (s.cfg.lenFieldBits + 1) ∧
      (bits w s.cfg.lenFieldBits s.cfg.lenFieldBits = 1 ↔ 0 < t.rd.filled) ∧ returned t = out

/-- The read side loses, repeats and reorders nothing, whatever CAN-RX appends before each pop: the tail and the frames
popped are the bytes delivered and the tail left, and the frames popped and the queue left are the queue and what
arrived (20_memory.md section 5, the spec's derivation; the arrivals are log 7). -/
def Obligations.ReadConservesTheStream : Prop :=
  ∀ (s : State) (cap : Nat), Ready s → QueueOk s →
    ∃ t popped out m, exec (.read cap) s = .next t ∧
      t.history = s.history ++ popEvents popped ∧ t.dst = s.dst.write 0 out ∧
      out ++ t.rd.held = s.rd.held ++ wireBytes popped ∧ out.length ≤ cap ∧
      popped ++ t.rxq = s.rxq ++ (s.arrivals.take m).flatten ∧ t.arrivals = s.arrivals.drop m ∧
      (out.length < cap → t.rxq = [])

/-- A READ with capacity 0 changes nothing but its response (41_read.md rule on corner cases, the spec's decision D9). -/
def Obligations.ReadOfNothingChangesNothing : Prop :=
  ∀ s : State, Ready s → exec (.read 0) s =
    .next { s with response := some (readResponse s.cfg.lenFieldBits 0 (decide (0 < s.rd.filled))) }

/-- A popped frame whose length is not FLD of its first byte raises RxCorrupt of that byte, after its Pop event and with
no response (60_exceptions.md section 2, the spec's decisions D7 and D27; log 10). -/
def Obligations.ReadRaisesRxCorrupt : Prop :=
  ∀ (s : State) (cap : Nat) (fs q : List Frame) (bad : Frame), Ready s → s.arrivals = [] →
    s.rxq = fs ++ bad :: q → (∀ g ∈ fs, g.Ok s.cfg) → ¬ bad.Ok s.cfg → s.faults = [] →
    s.rd.filled + (wireBytes fs).length < cap →
    ∃ t, exec (.read cap) s = .next t ∧ t.faults = [.rxCorrupt bad.b0] ∧ t.response = none ∧
      t.history = s.history ++ popEvents (fs ++ [bad]) ∧ t.rxq = q

/-- READ and WRITE before any RESET raise NoSession and leave every other part of the state alone (60_exceptions.md
section 2, the spec's decision D14; log 10). -/
def Obligations.ReadAndWriteNeedASession : Prop :=
  ∀ (s : State) (cap : Nat) (src : List Byte), s.sessionOpen = false → s.faults = [] →
    exec (.read cap) s = .next { s with faults := [.noSession], response := none } ∧
    exec (.write src) s = .next { s with faults := [.noSession], response := none }

/-- What a READ leaves alone: the write side, its collaborators' answers, the configuration, the session, FLD's record
and the agenda; every destination byte from COUNT on (from C on where it raised); every byte of RD.buf from the new
RD.filled on. That last clause is the model's choice where the spec leaves the bytes unspecified (log 3). -/
def Obligations.ReadFrame : Prop :=
  ∀ (s t : State) (cap : Nat), Ready s → exec (.read cap) s = .next t →
    t.cfg = s.cfg ∧ t.wr = s.wr ∧ t.sessionOpen = s.sessionOpen ∧ t.usbDraws = s.usbDraws ∧
    t.spiDraws = s.spiDraws ∧ t.draws = s.draws ∧ t.fldAnswer = s.fldAnswer ∧ t.agenda = s.agenda ∧
    (t.response ≠ none → t.faults = s.faults) ∧
    (∀ a, cap ≤ a → t.dst.read a = s.dst.read a) ∧
    (∀ a, t.response ≠ none → cap < 2 ^ s.cfg.lenFieldBits → countOf t ≤ a → t.dst.read a = s.dst.read a) ∧
    (∀ a, t.rd.filled ≤ a → t.rd.buf.read a = s.rd.buf.read a)

/-- A READ with capacity C pops at most C frames: each takes a destination byte (70_reset_and_hazards.md section 4). -/
def Obligations.ReadPopsAtMostCapacityFrames : Prop :=
  ∀ (s t : State) (cap : Nat), Ready s → exec (.read cap) s = .next t →
    (poppedFrames t.history).length ≤ (poppedFrames s.history).length + cap

/-- Chunking invariance: READs of any capacities of at least 1 whose sum covers the queue return the queued frames'
bytes in order, whole (41_read.md rule on chunking, the spec's derivation). -/
def Obligations.ReadsReturnTheQueueInAnyChunks : Prop :=
  ∀ (s : State) (caps : List Nat), Ready s → s.rd.filled = 0 → s.arrivals = [] → (∀ f ∈ s.rxq, f.Ok s.cfg) →
    (∀ c ∈ caps, 1 ≤ c ∧ c < 2 ^ s.cfg.lenFieldBits) → (wireBytes s.rxq).length ≤ caps.sum →
    ∃ t, readAll caps s = some (wireBytes s.rxq, t) ∧ t.rd.filled = 0 ∧ t.rxq = []

/-- DRAIN C with C ≥ 1 ends: READ repeated until COUNT < C empties the tail and the queue in a bounded number of READs
(30_encoding.md section 6, 70_reset_and_hazards.md section 3; the bound on repetitions is the model's, log 21). -/
def Obligations.DrainEmptiesTheReadSide : Prop :=
  ∀ (s : State) (cap fuel : Nat), Ready s → s.arrivals = [] → (∀ f ∈ s.rxq, f.Ok s.cfg) →
    1 ≤ cap → cap < 2 ^ s.cfg.lenFieldBits → s.rd.filled + (wireBytes s.rxq).length < fuel →
    ∃ t, drain cap fuel s = .next t ∧ t.rd.filled = 0 ∧ t.rxq = [] ∧ countOf t < cap

/-! ## WRITE -/

/-- R133: an input that completes the pending frame appends the missing bytes behind it, submits the frame, clears
both counters, and the WRITE goes on with the rest of its input; the WRITE completes. -/
def Obligations.WriteCompletesThePendingFrame : Prop :=
  ∀ (s : State) (src : List Byte), Ready s → s.wr.reject = false → 0 < s.wr.needed → s.wr.needed ≤ src.length →
    exec (.write src) s = exec (.write (src.drop s.wr.needed)) { s with
      history := s.history ++ [submitEvent (s.wr.held ++ src.take s.wr.needed)]
      wr := ⟨s.wr.buf.write s.wr.filled (src.take s.wr.needed), 0, 0, false⟩ } ∧
    (∃ t, exec (.write src) s = .next t) ∧ IsFrame s.cfg (s.wr.held ++ src.take s.wr.needed)

/-- An input shorter than what is needed joins the partial frame, and no frame is submitted (42_write.md step 1; the
increase of WR.filled is the spec's resolution 90_conflicts.md C13). -/
def Obligations.WriteExtendsThePartialFrame : Prop :=
  ∀ (s : State) (src : List Byte), Ready s → s.wr.reject = false → src.length < s.wr.needed →
    ∃ t, exec (.write src) s = .next t ∧
      t.wr = ⟨s.wr.buf.write s.wr.filled src, s.wr.filled + src.length, s.wr.needed - src.length, false⟩ ∧
      1 ≤ t.wr.needed ∧ submittedFrames t.history = submittedFrames s.history

/-- R138: a whole frame at a frame boundary is submitted with the bus id of its byte 0, is not copied to WR.buf, and
the WRITE goes on behind it; the WRITE completes. -/
def Obligations.WriteSubmitsAWholeFrame : Prop :=
  ∀ (s : State) (frame rest : List Byte), Ready s → s.wr.reject = false → s.wr.needed = 0 → IsFrame s.cfg frame →
    exec (.write (frame ++ rest)) s = exec (.write rest) { s with history := s.history ++ [submitEvent frame] } ∧
    ∃ t, exec (.write (frame ++ rest)) s = .next t

/-- R139: a trailing partial frame goes to the front of WR.buf and the counters say what is there and what is missing. -/
def Obligations.WriteKeepsATrailingPartialFrame : Prop :=
  ∀ (s : State) (b0 : Byte) (tl : List Byte) (n : Nat), Ready s → s.wr.reject = false → s.wr.needed = 0 →
    fld s.cfg b0 = some n → tl.length + 1 < n →
    ∃ t, exec (.write (b0 :: tl)) s = .next t ∧ t.wr.buf.readRange 0 (tl.length + 1) = b0 :: tl ∧
      t.wr.filled = tl.length + 1 ∧ t.wr.needed = n - (tl.length + 1) ∧ t.wr.reject = false ∧
      submittedFrames t.history = submittedFrames s.history

/-- An unrecognised code at a frame boundary records CorruptStream of its byte, sets WR.reject, keeps the counters at 0
and discards the rest of the input; the WRITE completes and says WR_REJECT (42_write.md step 2, 60_exceptions.md
section 1, the spec's decision D6). -/
def Obligations.WriteRejectsAnUnrecognisedCode : Prop :=
  ∀ (s : State) (b0 : Byte) (tl : List Byte), Ready s → s.wr.reject = false → s.wr.needed = 0 →
    fld s.cfg b0 = none →
    ∃ t ru rs, exec (.write (b0 :: tl)) s = .next t ∧ t.wr = ⟨s.wr.buf, 0, 0, true⟩ ∧ t.faults = s.faults ∧
      s.history ++ [.corruptStream b0] <+: t.history ∧ submittedFrames t.history = submittedFrames s.history ∧
      t.response = some (writeResponse ru rs false true)

/-- A rejecting write side discards every input: no Submit, no change of WR; and TAN still runs (42_write.md rule on
rejecting, the spec's decisions D6 and D30). -/
def Obligations.WriteDiscardsWhileRejecting : Prop :=
  ∀ (s : State) (src : List Byte), Ready s → s.wr.reject = true →
    ∃ t, exec (.write src) s = .next t ∧ t.wr = s.wr ∧
      submittedFrames t.history = submittedFrames s.history ∧
      resumeSignals t.history = resumeSignals s.history ++
        ((if s.cfg.tUsb ≤ usbAnswer s then [.usb] else []) ++ (if s.cfg.tSpi ≤ spiAnswer s then [.spi] else []))

/-- The write side cuts its stream: with the bytes held and the input as one stream, the WRITE submits exactly the
frames of its cut in order, and keeps what is left, or rejects at an unrecognised code (20_memory.md section 5, the
spec's derivation; rejecting is decision D6). -/
def Obligations.WriteSubmitsTheCutOfItsStream : Prop :=
  ∀ (s : State) (src : List Byte), Ready s → s.wr.reject = false →
    ∃ t frames rest, exec (.write src) s = .next t ∧ IsCut s.cfg (s.wr.held ++ src) frames rest ∧
      s.history ++ frames.map submitEvent <+: t.history ∧
      (submittedFrames t.history).length = (submittedFrames s.history).length + frames.length ∧
      (Unrecognised s.cfg rest → t.wr.reject = true ∧ t.wr.held = [] ∧ t.wr.needed = 0) ∧
      (¬ Unrecognised s.cfg rest → t.wr.reject = false ∧ t.wr.held = rest)

/-- Reassembly: WRITEs of any chunks of a stream, single bytes and empty chunks included, submit the frames of the whole
stream's cut, byte for byte and in order (95_test_vectors.md SX-07, 20_memory.md section 5). -/
def Obligations.WritesReassembleAnyChunks : Prop :=
  ∀ (s : State) (chunks : List (List Byte)) (frames : List (List Byte)) (rest : List Byte), Ready s →
    s.wr.reject = false → s.wr.needed = 0 → IsCut s.cfg chunks.flatten frames rest →
    ∃ t, execAll (chunks.map .write) s = .next t ∧
      submittedFrames t.history =
        submittedFrames s.history ++ submittedFrames (frames.map submitEvent) ∧
      (Unrecognised s.cfg rest ↔ t.wr.reject = true) ∧ (¬ Unrecognised s.cfg rest → t.wr.held = rest)

/-- R134 and R145: every frame a WRITE submits is whole, stands in one piece in the bytes held and the input, and goes
out with bits 3:1 of its byte 0 as bus. -/
def Obligations.SubmittedFramesAreWholeWithTheirBus : Prop :=
  ∀ (s t : State) (src bs : List Byte) (bus : BusId) (new : List Event), Ready s →
    exec (.write src) s = .next t → t.history = s.history ++ new → .submit bs bus ∈ new →
    IsFrame s.cfg bs ∧ bs <:+: s.wr.held ++ src ∧ ∃ b0 tl, bs = b0 :: tl ∧ bus = b0.extractLsb' 1 3

/-- The admission check is level-triggered (43_admission.md): a WRITE after which it runs signals each transport exactly
when the answer to its query is at least its threshold, whatever was signalled before, and says so in RESUME_USB and
RESUME_SPI. It makes one query of each kind and takes exactly one answer for each: the next of the state's list, or a
free value where the list is empty. The spec's own decisions in it: which WRITEs run the check (92_eei_decisions.md D10
for an incomplete frame, D30 while rejecting), USB before SPI with one query each (D11), 'at least' as the test (D12);
the lists of answers and the count of free ones are the model's (log 6). -/
def Obligations.AdmissionCheckIsLevelTriggered : Prop :=
  ∀ (s : State) (src : List Byte), Ready s → (s.wr.needed ≤ src.length ∨ s.cfg.notifyOnIncomplete = true) →
    ∃ t new, exec (.write src) s = .next t ∧
      t.history = s.history ++ new ++
        ((if s.cfg.tUsb ≤ usbAnswer s then [.resume .usb] else []) ++
          (if s.cfg.tSpi ≤ spiAnswer s then [.resume .spi] else [])) ∧
      resumeSignals new = [] ∧
      t.response = some (writeResponse (decide (s.cfg.tUsb ≤ usbAnswer s)) (decide (s.cfg.tSpi ≤ spiAnswer s))
        (decide (0 < t.wr.needed)) t.wr.reject) ∧
      (∀ u us, s.usbDraws = u :: us → usbAnswer s = u ∧ t.usbDraws = us) ∧
      (∀ p ps, s.spiDraws = p :: ps → spiAnswer s = p ∧ t.spiDraws = ps) ∧
      (s.usbDraws = [] → t.usbDraws = []) ∧ (s.spiDraws = [] → t.spiDraws = []) ∧
      t.draws = s.draws + (if s.usbDraws = [] then 1 else 0) + (if s.spiDraws = [] then 1 else 0)

/-- With NOTIFY_ON_INCOMPLETE = false a WRITE that leaves the pending frame incomplete runs no admission check: no query,
no signal, both RESUME bits 0 (42_write.md step 3, 90_conflicts.md C1, the spec's decision D10). -/
def Obligations.AdmissionCheckSkippedOnIncomplete : Prop :=
  ∀ (s : State) (src : List Byte), Ready s → s.wr.reject = false → src.length < s.wr.needed →
    s.cfg.notifyOnIncomplete = false →
    ∃ t, exec (.write src) s = .next t ∧ t.history = s.history ∧ t.usbDraws = s.usbDraws ∧
      t.spiDraws = s.spiDraws ∧ t.draws = s.draws ∧ t.response = some (writeResponse false false true false)

/-- WRITE completes in every open session, and its response word holds four bits: RESUME_USB and RESUME_SPI say whether
this WRITE signalled that transport, WR_PENDING and WR_REJECT say the write side after it (30_encoding.md section 5,
the spec's decision D3). -/
def Obligations.WriteResponseBits : Prop :=
  ∀ (s : State) (src : List Byte), Ready s →
    ∃ t w new, exec (.write src) s = .next t ∧ t.response = some w ∧ t.history = s.history ++ new ∧ w < 16 ∧
      (bits w 0 0 = 1 ↔ .resume .usb ∈ new) ∧ (bits w 1 1 = 1 ↔ .resume .spi ∈ new) ∧
      (bits w 2 2 = 1 ↔ 0 < t.wr.needed) ∧ (bits w 3 3 = 1 ↔ t.wr.reject = true)

/-- What a WRITE leaves alone: the read side, the receive queue, the destination, the configuration, the session, the
faults, FLD's record and the agenda; and every byte of WR.buf but those it stores: the bytes appended behind a pending
frame, and the trailing partial frame at the front. That last clause is the model's choice for bytes at an index from the
new WR.filled on, which the spec leaves undefined (log 3). -/
def Obligations.WriteFrame : Prop :=
  ∀ (s t : State) (src : List Byte), Ready s → exec (.write src) s = .next t →
    t.cfg = s.cfg ∧ t.rd = s.rd ∧ t.sessionOpen = s.sessionOpen ∧ t.faults = s.faults ∧ t.rxq = s.rxq ∧
    t.arrivals = s.arrivals ∧ t.dst = s.dst ∧ t.fldAnswer = s.fldAnswer ∧ t.agenda = s.agenda ∧
    ∀ a, (s.wr.needed ≤ src.length → t.wr.filled ≤ a) →
      (a < s.wr.filled ∨ s.wr.filled + min src.length s.wr.needed ≤ a) → t.wr.buf.read a = s.wr.buf.read a

/-- A WRITE of L bytes submits at most (L + 5) / 6 frames (70_reset_and_hazards.md section 4, the spec's derivation). -/
def Obligations.WriteSubmitsAtMostOneFramePerSixBytes : Prop :=
  ∀ (s t : State) (src : List Byte), Ready s → exec (.write src) s = .next t →
    (submittedFrames t.history).length ≤ (submittedFrames s.history).length + (src.length + 5) / 6

/-- SPLIT covers its bytes in order, in chunks of k bytes with only the last one shorter (30_encoding.md section 6; the
expansion is the model's function, log 21). -/
def Obligations.SplitCoversItsBytes : Prop :=
  ∀ (k : Nat) (bs : List Byte), 1 ≤ k →
    (splitChunks k bs.length bs).flatten = bs ∧
    ∀ pre last, splitChunks k bs.length bs = pre ++ [last] →
      (∀ c ∈ pre, c.length = k) ∧ 1 ≤ last.length ∧ last.length ≤ k

/-! ## RESET -/

/-- RESET writes its five elements and answers the zero word; everything else stays (44_reset.md, the spec's decisions
D26 and D29). -/
def Obligations.ResetWritesItsFiveElements : Prop :=
  ∀ s : State, exec .reset s = .next { s with
    rd := { s.rd with filled := 0 }
    wr := { s.wr with filled := 0, needed := 0, reject := false }
    sessionOpen := true
    response := some 0 }

/-- A second RESET changes nothing (44_reset.md rule on idempotence, the spec's derivation). -/
def Obligations.ResetIsIdempotent : Prop :=
  ∀ s t : State, exec .reset s = .next t → exec .reset t = .next t

/-- RESET discards a partial frame in either direction (44_reset.md): what later READs return, however many and of
whatever capacities, is cut from the frames of the receive queue alone, and what later WRITEs submit is cut from their
own input alone. The spec's own decisions in it: a cut ends at an unrecognised code (92_eei_decisions.md D6), and after a
RESET a write side that was rejecting submits again (D29). Arrivals during the READs are left out (log 7). -/
def Obligations.ResetDiscardsPartialFrames : Prop :=
  ∀ (s t : State), Ready s → s.arrivals = [] → (∀ f ∈ s.rxq, f.Ok s.cfg) → exec .reset s = .next t →
    (∀ caps : List Nat, (∀ c ∈ caps, c < 2 ^ s.cfg.lenFieldBits) →
      ∃ u out, readAll caps t = some (out, u) ∧ out <+: wireBytes s.rxq) ∧
    (∀ (chunks frames : List (List Byte)) (rest : List Byte), IsCut s.cfg chunks.flatten frames rest →
      ∃ u, execAll (chunks.map .write) t = .next u ∧
        submittedFrames u.history = submittedFrames s.history ++ submittedFrames (frames.map submitEvent))

/-- From every power-on state, whatever its registers hold, RESET opens a session that meets the invariant
(70_reset_and_hazards.md section 1, the spec's decision D14; the memories' form is the model's, log 2). -/
def Obligations.ResetOpensASessionFromPowerOn : Prop :=
  ∀ s : State, AtPowerOn s → MemInv s → ConfigOk s.cfg →
    ∃ t, exec .reset s = .next t ∧ Ready t ∧ rdMode t.rd = .idle ∧ wrMode t.wr = .idle ∧ t.history = [] ∧ t.faults = []

/-! ## Rules over all instructions -/

/-- R43: the two directions share nothing: READ neither reads nor writes WR, and WRITE neither reads nor writes RD. Run
with another content of the other direction, each does the same and leaves that content as it was. -/
def Obligations.DirectionsShareNoState : Prop :=
  ∀ (s : State) (cap : Nat) (src : List Byte) (rd : RdState) (wr : WrState),
    exec (.read cap) { s with wr := wr } = mapNext (fun t => { t with wr := wr }) (exec (.read cap) s) ∧
    exec (.write src) { s with rd := rd } = mapNext (fun t => { t with rd := rd }) (exec (.write src) s)

/-- A READ and a WRITE give the same in either order: the two end states differ in nothing but the last response and how
the READ's Pop events lie among the WRITE's events. The history a run shows (Submit, Resume, CorruptStream, in their
order among each other), the frames popped and both responses are the same (20_memory.md section 5, 00_scope.md
section 7, the spec's decision D32). -/
def Obligations.ReadAndWriteCommute : Prop :=
  ∀ (s : State) (cap : Nat) (src : List Byte), Ready s → QueueOk s →
    ∃ r rw w wr, exec (.read cap) s = .next r ∧ exec (.write src) r = .next rw ∧
      exec (.write src) s = .next w ∧ exec (.read cap) w = .next wr ∧
      { rw with history := wr.history, response := wr.response } = wr ∧
      shownEvents rw.history = shownEvents wr.history ∧ poppedFrames rw.history = poppedFrames wr.history ∧
      rw.response = w.response ∧ wr.response = r.response

/-- Only RESET opens a session and nothing closes one, and only RESET leaves WR_REJECT (10_state.md sections 4 and 5,
60_exceptions.md section 3, the spec's decisions D6 and D14). -/
def Obligations.OnlyResetOpensASessionOrEndsRejection : Prop :=
  ∀ (i : Instr) (s t : State), exec i s = .next t → i ≠ .reset →
    t.sessionOpen = s.sessionOpen ∧ (s.wr.reject = true → t.wr.reject = true)

/-- A partial frame stays until its own direction's operation or a RESET: nothing else touches RD or WR
(10_state.md section 7, 60_exceptions.md section 4). -/
def Obligations.PartialFramesPersist : Prop :=
  ∀ (i : Instr) (s t : State), exec i s = .next t → i ≠ .reset →
    ((∀ cap, i ≠ .read cap) → t.rd = s.rd) ∧ ((∀ src, i ≠ .write src) → t.wr = s.wr)

/-- A copy done byte by byte in ascending order to the same or a lower index gives what a copy of the whole range at
once gives: every source byte is read before it is overwritten (20_memory.md section 3). -/
def Obligations.AscendingCopyShiftsDown : Prop :=
  ∀ (m : Memory) (src dst n : Nat), m.wf → dst ≤ src → copyAscending m src dst n = m.write dst (m.readRange src n)
end

