-- ==== Sys2Proof/Laws/Decode.lean ====
section
/-! SUPPORT. The laws of bit fields, command words, a frame's first byte, FLD and the configuration check. -/

namespace Sys2Proof

open Machine

/-! ## Bit fields of a command word -/

theorem bits_op (op len : Nat) (h : op < 4) : bits (commandWord op len) 1 0 = op := by
  unfold bits commandWord; norm_num; omega

theorem bits_rsv (op len : Nat) (h : op < 4) : bits (commandWord op len) 7 2 = 0 := by
  unfold bits commandWord; norm_num; omega

theorem bits_len {op len lfb : Nat} (h : op < 4) (hl : len < 2 ^ lfb) :
    bits (commandWord op len) (7 + lfb) 8 = len := by
  unfold bits commandWord
  rw [show 7 + lfb + 1 - 8 = lfb by omega, show (op + 256 * len) / 2 ^ 8 = len by omega]
  exact Nat.mod_eq_of_lt hl

theorem commandWord_lt {op len lfb : Nat} (h : op < 4) (hl : len < 2 ^ lfb) :
    commandWord op len < 2 ^ (8 + lfb) := by
  unfold commandWord
  rw [Nat.pow_add]
  have : len + 1 ≤ 2 ^ lfb := hl
  have := Nat.mul_le_mul_left 256 this
  norm_num
  omega

/-- A command word is its OP, RSV and LEN fields put together (R83). -/
theorem word_fields {lfb w : Nat} (h : w < 2 ^ (8 + lfb)) :
    w = bits w 1 0 + 4 * bits w 7 2 + 256 * bits w (7 + lfb) 8 := by
  unfold bits
  rw [show 7 + lfb + 1 - 8 = lfb by omega, Nat.mod_eq_of_lt (a := w / 2 ^ 8)]
  · norm_num; omega
  · rw [Nat.div_lt_iff_lt_mul (by norm_num), ← Nat.pow_add, Nat.add_comm lfb 8]; exact h

theorem bits_lt (v hi lo : Nat) : bits v hi lo < 2 ^ (hi + 1 - lo) := Nat.mod_lt _ (Nat.two_pow_pos _)

/-! ## The first byte of a frame -/

@[simp] theorem codeOf_frameByte0 : ∀ (c : Code) (bus : BusId) (fd : Bool), codeOf (frameByte0 c bus fd) = c := by
  decide

@[simp] theorem busOf_frameByte0 : ∀ (c : Code) (bus : BusId) (fd : Bool), busOf (frameByte0 c bus fd) = bus := by
  decide

@[simp] theorem fdOf_frameByte0 : ∀ (c : Code) (bus : BusId) (fd : Bool), fdOf (frameByte0 c bus fd) = fd := by
  decide

/-- A byte is its CODE, BUS and FD fields put together (R72). -/
theorem frameByte0_fields : ∀ b0 : Byte, frameByte0 (codeOf b0) (busOf b0) (fdOf b0) = b0 := by
  decide

/-! ## FLD and the configuration -/

/-- FLD is the payload length of the code plus HEAD_SIZE (R78). -/
theorem fld_eq (cfg : Config) (b0 : Byte) : fld cfg b0 = (lenOf cfg (codeOf b0)).map (headSize + ·) := by
  unfold fld; cases lenOf cfg (codeOf b0) <;> rfl

theorem lenOf_mem (cfg : Config) (code : Code) : lenOf cfg code ∈ cfg.lenTable.toList := by
  unfold lenOf
  rw [Vector.get_eq_getElem]
  exact Vector.mem_toList_iff.2 (Vector.getElem_mem _)

/-- What the configuration check lets through (R9, R208). -/
theorem configOk_iff (cfg : Config) : ConfigOk cfg ↔
    minOvfCap ≤ cfg.ovfCap ∧ (∀ n, some n ∈ cfg.lenTable.toList → n ≤ maxPayload) ∧
      some maxPayload ∈ cfg.lenTable.toList ∧ 7 ≤ cfg.lenFieldBits := by
  have hany : (cfg.lenTable.toList.any fun e => e.any fun n => decide (maxPayload < n)) = true ↔
      ¬ ∀ n, some n ∈ cfg.lenTable.toList → n ≤ maxPayload := by
    rw [List.any_eq_true]
    constructor
    · rintro ⟨e, he, h⟩ hall
      cases e with
      | none => simp at h
      | some n => have := hall n he; simp at h; omega
    · intro h
      push Not at h
      obtain ⟨n, hn, hlt⟩ := h
      exact ⟨some n, hn, by simpa using hlt⟩
  unfold ConfigOk configFault
  split
  · simp; omega
  · split
    · rename_i h
      exact ⟨fun h2 => (nomatch h2), fun h2 => absurd h2.2.1 (hany.1 h)⟩
    · rename_i h; rw [hany, not_not] at h
      split
      · rename_i h2
        exact ⟨fun h3 => (nomatch h3), fun h3 => absurd h3.2.2.1 h2⟩
      · rename_i h2; rw [not_not] at h2
        split
        · simp; omega
        · simp only [true_iff]; exact ⟨by omega, h, h2, by omega⟩

/-- The total length lies in [6, 70] (R71, R78). -/
theorem fld_range {cfg : Config} (hc : ConfigOk cfg) {b0 : Byte} {n : Nat} (h : fld cfg b0 = some n) :
    minFrame ≤ n ∧ n ≤ maxFrame := by
  rw [fld_eq] at h
  have hm := lenOf_mem cfg (codeOf b0)
  cases hl : lenOf cfg (codeOf b0) with
  | none => simp [hl] at h
  | some k =>
    rw [hl] at h hm
    have := ((configOk_iff cfg).1 hc).2.1 k hm
    simp at h; subst h
    simp only [headSize, minFrame, maxFrame, maxPayload] at *
    omega

/-- FLD of any configuration is at least 1: a frame has its first byte. -/
theorem fld_pos {cfg : Config} {b0 : Byte} {n : Nat} (h : fld cfg b0 = some n) : headSize ≤ n := by
  rw [fld_eq] at h
  cases hl : lenOf cfg (codeOf b0) with
  | none => simp [hl] at h
  | some k => rw [hl] at h; simp at h; omega

theorem ovfCap_ge {cfg : Config} (hc : ConfigOk cfg) : minOvfCap ≤ cfg.ovfCap := ((configOk_iff cfg).1 hc).1

end Sys2Proof
end

