-- ==== Sys2Proof/Laws/Memory.lean ====
section
/-! SUPPORT. The laws of memory: canonical form, read after write, ranges. -/

namespace Sys2Proof.Machine

@[simp] theorem Memory.read_nil (a : Nat) : Memory.read [] a = Memory.unlisted := rfl

theorem Memory.read_cons (c : Host.Cell) (m : Memory) (a : Nat) :
    Memory.read (c :: m) a = if c.1 = a then c.2 else Memory.read m a := rfl

/-- An address that no entry has reads as unlisted. -/
theorem Memory.read_of_absent {m : Memory} {a : Nat} (h : ∀ c ∈ m, c.1 ≠ a) : m.read a = Memory.unlisted := by
  induction m with
  | nil => rfl
  | cons c m ih =>
    rw [Memory.read_cons, if_neg (h c (by simp))]
    exact ih fun d hd => h d (by simp [hd])

/-- Reading in a concatenation whose first part does not list the address. -/
theorem Memory.read_append_right {m n : Memory} {a : Nat} (h : ∀ c ∈ m, c.1 ≠ a) :
    Memory.read (m ++ n) a = n.read a := by
  induction m with
  | nil => rfl
  | cons c m ih =>
    rw [List.cons_append, Memory.read_cons, if_neg (h c (by simp))]
    exact ih fun d hd => h d (by simp [hd])

/-- Reading in a concatenation whose second part does not list the address. -/
theorem Memory.read_append_left {m n : Memory} {a : Nat} (h : ∀ c ∈ n, c.1 ≠ a) :
    Memory.read (m ++ n) a = m.read a := by
  induction m with
  | nil => exact Memory.read_of_absent h
  | cons c m ih => rw [List.cons_append, Memory.read_cons, Memory.read_cons, ih]

/-- Keeping the entries of a set of addresses keeps the bytes at those addresses. -/
theorem Memory.read_filter {m : Memory} {a : Nat} {p : Nat → Bool} (h : p a = true) :
    Memory.read (m.filter fun c => p c.1) a = m.read a := by
  induction m with
  | nil => rfl
  | cons c m ih =>
    rw [List.filter_cons]
    by_cases hc : c.1 = a
    · rw [if_pos (by rw [hc]; exact h), Memory.read_cons, Memory.read_cons, if_pos hc, if_pos hc]
    · split
      · rw [Memory.read_cons, Memory.read_cons, if_neg hc, if_neg hc, ih]
      · rw [ih, Memory.read_cons, if_neg hc]

/-- The addresses of laid-out entries. -/
theorem Memory.mem_cells {c : Host.Cell} {a : Nat} {bs : List Byte} (h : c ∈ Memory.cells a bs) :
    a ≤ c.1 ∧ c.1 < a + bs.length ∧ c.2 ≠ Memory.unlisted := by
  induction bs generalizing a with
  | nil => simp [Memory.cells] at h
  | cons b bs ih =>
    unfold Memory.cells at h
    split at h
    · obtain ⟨h1, h2, h3⟩ := ih h
      simp only [List.length_cons]; exact ⟨by omega, by omega, h3⟩
    · rename_i hb
      rcases List.mem_cons.1 h with rfl | h
      · simp only [List.length_cons]; exact ⟨le_refl _, by omega, hb⟩
      · obtain ⟨h1, h2, h3⟩ := ih h
        simp only [List.length_cons]; exact ⟨by omega, by omega, h3⟩

/-- The bytes of laid-out entries. -/
theorem Memory.read_cells {a i : Nat} {bs : List Byte} :
    Memory.read (Memory.cells a bs) (a + i) = bs.getD i Memory.unlisted := by
  induction bs generalizing a i with
  | nil => simp [Memory.cells]
  | cons b bs ih =>
    cases i with
    | zero =>
      unfold Memory.cells
      split
      · rename_i hb
        rw [Memory.read_of_absent]
        · simp [hb]
        · intro c hc; have := Memory.mem_cells hc; omega
      · simp [Memory.read_cons]
    | succ i =>
      have e : a + (i + 1) = a + 1 + i := by omega
      unfold Memory.cells
      split
      · rw [e, ih]; simp
      · rw [Memory.read_cons, if_neg (by simp), e, ih]; simp

/-- Read after write: a written address gives the byte written. -/
theorem Memory.read_write_in {m : Memory} {a i : Nat} {bs : List Byte} (h : i < bs.length) :
    (m.write a bs).read (a + i) = bs.getD i Memory.unlisted := by
  unfold Memory.write
  rw [Memory.read_append_left, Memory.read_append_right, Memory.read_cells]
  · intro c hc; have := (List.mem_filter.1 hc).2; simp at this; omega
  · intro c hc; have := (List.mem_filter.1 hc).2; simp at this; omega

/-- Read after write: every other address keeps its byte. -/
theorem Memory.read_write_out {m : Memory} {a x : Nat} {bs : List Byte} (h : x < a ∨ a + bs.length ≤ x) :
    (m.write a bs).read x = m.read x := by
  unfold Memory.write
  rcases h with h | h
  · rw [Memory.read_append_left, Memory.read_append_left]
    · exact Memory.read_filter (p := fun y => decide (y < a)) (by simpa using h)
    · intro c hc; have := Memory.mem_cells hc; omega
    · intro c hc; have := (List.mem_filter.1 hc).2; simp at this; omega
  · rw [Memory.read_append_right]
    · exact Memory.read_filter (p := fun y => decide (a + bs.length ≤ y)) (by simpa using h)
    · intro c hc
      rcases List.mem_append.1 hc with hc | hc
      · have := (List.mem_filter.1 hc).2; simp at this; omega
      · have := Memory.mem_cells hc; omega

/-- Laid-out entries rise. -/
theorem Memory.cells_pairwise (a : Nat) (bs : List Byte) :
    (Memory.cells a bs).Pairwise fun c d => c.1 < d.1 := by
  induction bs generalizing a with
  | nil => exact List.Pairwise.nil
  | cons b bs ih =>
    unfold Memory.cells
    split
    · exact ih _
    · refine List.Pairwise.cons ?_ (ih _)
      intro c hc; have := Memory.mem_cells hc; simp only; omega

/-- The empty memory is canonical. -/
theorem Memory.wf_nil : Memory.wf [] := ⟨List.Pairwise.nil, by simp⟩

/-- A write keeps the canonical form. -/
theorem Memory.wf_write {m : Memory} {a : Nat} {bs : List Byte} (h : m.wf) : (m.write a bs).wf := by
  obtain ⟨hp, hn⟩ := h
  constructor
  · unfold Memory.write
    rw [List.pairwise_append, List.pairwise_append]
    refine ⟨⟨hp.filter _, Memory.cells_pairwise a bs, ?_⟩, hp.filter _, ?_⟩
    · intro c hc d hd
      have h1 := (List.mem_filter.1 hc).2; have h2 := Memory.mem_cells hd
      simp at h1; omega
    · intro c hc d hd
      have h2 := (List.mem_filter.1 hd).2; simp at h2
      rcases List.mem_append.1 hc with hc | hc
      · have h1 := (List.mem_filter.1 hc).2; simp at h1; omega
      · have h1 := Memory.mem_cells hc; omega
  · intro c hc
    unfold Memory.write at hc
    rcases List.mem_append.1 hc with hc | hc
    · rcases List.mem_append.1 hc with hc | hc
      · exact hn c (List.mem_filter.1 hc).1
      · exact (Memory.mem_cells hc).2.2
    · exact hn c (List.mem_filter.1 hc).1

/-- A write inside a range of addresses lists nothing outside it. -/
theorem Memory.write_in {m : Memory} {a cap : Nat} {bs : List Byte} (h : ∀ c ∈ m, c.1 < cap)
    (hb : a + bs.length ≤ cap) : ∀ c ∈ m.write a bs, c.1 < cap := by
  intro c hc
  unfold Memory.write at hc
  rcases List.mem_append.1 hc with hc | hc
  · rcases List.mem_append.1 hc with hc | hc
    · exact h c (List.mem_filter.1 hc).1
    · have := Memory.mem_cells hc; omega
  · exact h c (List.mem_filter.1 hc).1

/-! ## Ranges -/

@[simp] theorem Memory.readRange_zero (m : Memory) (a : Nat) : m.readRange a 0 = [] := rfl

theorem Memory.readRange_succ (m : Memory) (a n : Nat) :
    m.readRange a (n + 1) = m.read a :: m.readRange (a + 1) n := rfl

@[simp] theorem Memory.length_readRange (m : Memory) (a n : Nat) : (m.readRange a n).length = n := by
  induction n generalizing a with
  | zero => rfl
  | succ n ih => simp [Memory.readRange_succ, ih]

/-- A range is two adjacent ranges. -/
theorem Memory.readRange_add (m : Memory) (a n k : Nat) :
    m.readRange a (n + k) = m.readRange a n ++ m.readRange (a + n) k := by
  induction n generalizing a with
  | zero => simp
  | succ n ih =>
    rw [show n + 1 + k = n + k + 1 by omega, Memory.readRange_succ, Memory.readRange_succ, ih,
      show a + 1 + n = a + (n + 1) by omega]
    rfl

theorem Memory.take_readRange (m : Memory) (a : Nat) {k n : Nat} (h : k ≤ n) :
    (m.readRange a n).take k = m.readRange a k := by
  obtain ⟨j, rfl⟩ := Nat.exists_eq_add_of_le h
  rw [Memory.readRange_add]
  exact List.take_left' (Memory.length_readRange _ _ _)

theorem Memory.drop_readRange (m : Memory) (a : Nat) {k n : Nat} (h : k ≤ n) :
    (m.readRange a n).drop k = m.readRange (a + k) (n - k) := by
  obtain ⟨j, rfl⟩ := Nat.exists_eq_add_of_le h
  rw [Memory.readRange_add, List.drop_left' (Memory.length_readRange _ _ _), Nat.add_sub_cancel_left]

/-- Ranges of two memories that agree on the range. -/
theorem Memory.readRange_congr {m m' : Memory} {a n : Nat}
    (h : ∀ x, a ≤ x → x < a + n → m.read x = m'.read x) : m.readRange a n = m'.readRange a n := by
  induction n generalizing a with
  | zero => rfl
  | succ n ih =>
    rw [Memory.readRange_succ, Memory.readRange_succ, h a (le_refl _) (by omega)]
    congr 1
    exact ih fun x h1 h2 => h x (by omega) (by omega)

/-- Read after write, a whole range. -/
@[simp] theorem Memory.readRange_write_self (m : Memory) (a : Nat) (bs : List Byte) :
    (m.write a bs).readRange a bs.length = bs := by
  have aux : ∀ (k : Nat) (cs : List Byte), bs.drop k = cs → (m.write a bs).readRange (a + k) cs.length = cs := by
    intro k cs
    induction cs generalizing k with
    | nil => intro _; rfl
    | cons c cs ih =>
      intro hk
      have hlt : k < bs.length := by
        by_contra hge
        rw [List.drop_eq_nil_of_le (by omega)] at hk; cases hk
      rw [List.drop_eq_getElem_cons hlt] at hk
      obtain ⟨hc, htl⟩ := List.cons.inj hk
      rw [List.length_cons, Memory.readRange_succ, Memory.read_write_in hlt, List.getD_eq_getElem _ _ hlt, hc,
        show a + k + 1 = a + (k + 1) by omega, ih (k + 1) htl]
  simpa using aux 0 bs rfl

/-- Read after write, a range apart from the bytes written. -/
theorem Memory.readRange_write_out {m : Memory} {a x n : Nat} {bs : List Byte} (h : x + n ≤ a ∨ a + bs.length ≤ x) :
    (m.write a bs).readRange x n = m.readRange x n :=
  Memory.readRange_congr fun y h1 h2 => Memory.read_write_out (by omega)

/-- Two canonical memories with the same bytes are equal. -/
theorem Memory.ext_of_wf {m n : Memory} (hm : m.wf) (hn : n.wf) (h : ∀ a, m.read a = n.read a) : m = n := by
  have absent : ∀ (c : Host.Cell) (k : Memory), Memory.wf (c :: k) → ∀ a, a ≤ c.1 → Memory.read k a = Memory.unlisted := by
    intro c k hk a ha
    refine Memory.read_of_absent fun d hd => ?_
    have := List.rel_of_pairwise_cons hk.1 hd
    omega
  have tailWf : ∀ (c : Host.Cell) (k : Memory), Memory.wf (c :: k) → Memory.wf k :=
    fun c k hk => ⟨(List.pairwise_cons.1 hk.1).2, fun d hd => hk.2 d (by simp [hd])⟩
  induction m generalizing n with
  | nil =>
    cases n with
    | nil => rfl
    | cons d n =>
      have := h d.1
      simp [Memory.read_cons] at this
      exact absurd this.symm (hn.2 d (by simp))
  | cons c m ih =>
    cases n with
    | nil =>
      have := h c.1
      simp [Memory.read_cons] at this
      exact absurd this (hm.2 c (by simp))
    | cons d n =>
      have hc := hm.2 c (by simp)
      have hd := hn.2 d (by simp)
      have e : c.1 = d.1 := by
        rcases Nat.lt_trichotomy c.1 d.1 with hlt | heq | hgt
        · have := h c.1
          rw [Memory.read_cons, if_pos rfl, Memory.read_cons, if_neg (by omega), absent d n hn _ (by omega)] at this
          exact absurd this hc
        · exact heq
        · have := h d.1
          rw [Memory.read_cons, if_neg (by omega), absent c m hm _ (by omega), Memory.read_cons, if_pos rfl] at this
          exact absurd this.symm hd
      have e2 : c.2 = d.2 := by
        have := h c.1
        rw [Memory.read_cons, if_pos rfl, Memory.read_cons, if_pos e.symm] at this
        exact this
      have tl : m = n := by
        refine ih (tailWf c m hm) (tailWf d n hn) fun a => ?_
        by_cases ha : c.1 = a
        · rw [absent c m hm a (by omega), absent d n hn a (by omega)]
        · have := h a
          rw [Memory.read_cons, if_neg ha, Memory.read_cons, if_neg (by omega)] at this
          exact this
      rw [tl, Prod.ext e e2]

/-- Writing back what is there changes nothing. -/
theorem Memory.write_readRange_self {m : Memory} (h : m.wf) (a n : Nat) : m.write a (m.readRange a n) = m := by
  refine Memory.ext_of_wf (Memory.wf_write h) h fun x => ?_
  by_cases hx : a ≤ x ∧ x < a + n
  · obtain ⟨i, rfl⟩ := Nat.exists_eq_add_of_le hx.1
    have hi : i < n := by omega
    rw [Memory.read_write_in (by simpa using hi)]
    have h1 : m.readRange a n = m.readRange a i ++ m.readRange (a + i) (n - i) := by
      rw [← Memory.readRange_add]; congr 1; omega
    obtain ⟨j, hj⟩ : ∃ j, n - i = j + 1 := ⟨n - i - 1, by omega⟩
    rw [h1, hj, Memory.readRange_succ]
    simp
  · exact Memory.read_write_out (by simp; omega)

/-- Writing nothing changes nothing. -/
theorem Memory.write_nil {m : Memory} (h : m.wf) (a : Nat) : m.write a [] = m :=
  Memory.write_readRange_self h a 0

/-- Two adjacent writes are one write. -/
theorem Memory.write_append {m : Memory} (h : m.wf) (a : Nat) (bs cs : List Byte) :
    (m.write a bs).write (a + bs.length) cs = m.write a (bs ++ cs) := by
  refine Memory.ext_of_wf (Memory.wf_write (Memory.wf_write h)) (Memory.wf_write h) fun x => ?_
  by_cases h1 : x < a
  · rw [Memory.read_write_out (by omega), Memory.read_write_out (by omega), Memory.read_write_out (by omega)]
  · obtain ⟨i, rfl⟩ := Nat.exists_eq_add_of_le (Nat.le_of_not_lt h1)
    by_cases h2 : i < bs.length
    · rw [Memory.read_write_out (by omega), Memory.read_write_in h2, Memory.read_write_in (by simp; omega)]
      rw [List.getD_append _ _ _ _ h2]
    · obtain ⟨j, rfl⟩ := Nat.exists_eq_add_of_le (Nat.le_of_not_lt h2)
      by_cases h3 : j < cs.length
      · rw [← Nat.add_assoc, Memory.read_write_in h3, Nat.add_assoc,
          Memory.read_write_in (by simp; omega), List.getD_append_right _ _ _ _ (by omega)]
        congr 1; omega
      · rw [Memory.read_write_out (by omega), Memory.read_write_out (by omega),
          Memory.read_write_out (by simp; omega)]

end Sys2Proof.Machine
end

