-- ==== Sys2Proof/Laws/State.lean ====
section
/-! SUPPORT. One lemma per field per named update of the state, each true by unfolding the update once. -/

namespace Sys2Proof.Machine

/-! ### emit -/

@[simp] theorem emit_cfg (e : Event) (s : State) : (emit e s).cfg = s.cfg := rfl
@[simp] theorem emit_rd (e : Event) (s : State) : (emit e s).rd = s.rd := rfl
@[simp] theorem emit_wr (e : Event) (s : State) : (emit e s).wr = s.wr := rfl
@[simp] theorem emit_sessionOpen (e : Event) (s : State) : (emit e s).sessionOpen = s.sessionOpen := rfl
@[simp] theorem emit_history (e : Event) (s : State) : (emit e s).history = s.history ++ [e] := rfl
@[simp] theorem emit_faults (e : Event) (s : State) : (emit e s).faults = s.faults := rfl
@[simp] theorem emit_rxq (e : Event) (s : State) : (emit e s).rxq = s.rxq := rfl
@[simp] theorem emit_arrivals (e : Event) (s : State) : (emit e s).arrivals = s.arrivals := rfl
@[simp] theorem emit_usbDraws (e : Event) (s : State) : (emit e s).usbDraws = s.usbDraws := rfl
@[simp] theorem emit_spiDraws (e : Event) (s : State) : (emit e s).spiDraws = s.spiDraws := rfl
@[simp] theorem emit_draws (e : Event) (s : State) : (emit e s).draws = s.draws := rfl
@[simp] theorem emit_dst (e : Event) (s : State) : (emit e s).dst = s.dst := rfl
@[simp] theorem emit_response (e : Event) (s : State) : (emit e s).response = s.response := rfl
@[simp] theorem emit_fldAnswer (e : Event) (s : State) : (emit e s).fldAnswer = s.fldAnswer := rfl
@[simp] theorem emit_agenda (e : Event) (s : State) : (emit e s).agenda = s.agenda := rfl

/-! ### respond -/

@[simp] theorem respond_cfg (w : Nat) (s : State) : (respond w s).cfg = s.cfg := rfl
@[simp] theorem respond_rd (w : Nat) (s : State) : (respond w s).rd = s.rd := rfl
@[simp] theorem respond_wr (w : Nat) (s : State) : (respond w s).wr = s.wr := rfl
@[simp] theorem respond_sessionOpen (w : Nat) (s : State) : (respond w s).sessionOpen = s.sessionOpen := rfl
@[simp] theorem respond_history (w : Nat) (s : State) : (respond w s).history = s.history := rfl
@[simp] theorem respond_faults (w : Nat) (s : State) : (respond w s).faults = s.faults := rfl
@[simp] theorem respond_rxq (w : Nat) (s : State) : (respond w s).rxq = s.rxq := rfl
@[simp] theorem respond_arrivals (w : Nat) (s : State) : (respond w s).arrivals = s.arrivals := rfl
@[simp] theorem respond_usbDraws (w : Nat) (s : State) : (respond w s).usbDraws = s.usbDraws := rfl
@[simp] theorem respond_spiDraws (w : Nat) (s : State) : (respond w s).spiDraws = s.spiDraws := rfl
@[simp] theorem respond_draws (w : Nat) (s : State) : (respond w s).draws = s.draws := rfl
@[simp] theorem respond_dst (w : Nat) (s : State) : (respond w s).dst = s.dst := rfl
@[simp] theorem respond_response (w : Nat) (s : State) : (respond w s).response = some w := rfl
@[simp] theorem respond_fldAnswer (w : Nat) (s : State) : (respond w s).fldAnswer = s.fldAnswer := rfl
@[simp] theorem respond_agenda (w : Nat) (s : State) : (respond w s).agenda = s.agenda := rfl

/-! ### raise -/

@[simp] theorem raise_cfg (r : FaultRecord) (s : State) : (raise r s).cfg = s.cfg := rfl
@[simp] theorem raise_rd (r : FaultRecord) (s : State) : (raise r s).rd = s.rd := rfl
@[simp] theorem raise_wr (r : FaultRecord) (s : State) : (raise r s).wr = s.wr := rfl
@[simp] theorem raise_sessionOpen (r : FaultRecord) (s : State) : (raise r s).sessionOpen = s.sessionOpen := rfl
@[simp] theorem raise_history (r : FaultRecord) (s : State) : (raise r s).history = s.history := rfl
@[simp] theorem raise_faults (r : FaultRecord) (s : State) : (raise r s).faults = if r ∈ s.faults then s.faults else s.faults ++ [r] := rfl
@[simp] theorem raise_rxq (r : FaultRecord) (s : State) : (raise r s).rxq = s.rxq := rfl
@[simp] theorem raise_arrivals (r : FaultRecord) (s : State) : (raise r s).arrivals = s.arrivals := rfl
@[simp] theorem raise_usbDraws (r : FaultRecord) (s : State) : (raise r s).usbDraws = s.usbDraws := rfl
@[simp] theorem raise_spiDraws (r : FaultRecord) (s : State) : (raise r s).spiDraws = s.spiDraws := rfl
@[simp] theorem raise_draws (r : FaultRecord) (s : State) : (raise r s).draws = s.draws := rfl
@[simp] theorem raise_dst (r : FaultRecord) (s : State) : (raise r s).dst = s.dst := rfl
@[simp] theorem raise_response (r : FaultRecord) (s : State) : (raise r s).response = none := rfl
@[simp] theorem raise_fldAnswer (r : FaultRecord) (s : State) : (raise r s).fldAnswer = s.fldAnswer := rfl
@[simp] theorem raise_agenda (r : FaultRecord) (s : State) : (raise r s).agenda = s.agenda := rfl

/-! ### deliver -/

@[simp] theorem deliver_cfg (pos : Nat) (bs : List Byte) (s : State) : (deliver pos bs s).cfg = s.cfg := rfl
@[simp] theorem deliver_rd (pos : Nat) (bs : List Byte) (s : State) : (deliver pos bs s).rd = s.rd := rfl
@[simp] theorem deliver_wr (pos : Nat) (bs : List Byte) (s : State) : (deliver pos bs s).wr = s.wr := rfl
@[simp] theorem deliver_sessionOpen (pos : Nat) (bs : List Byte) (s : State) : (deliver pos bs s).sessionOpen = s.sessionOpen := rfl
@[simp] theorem deliver_history (pos : Nat) (bs : List Byte) (s : State) : (deliver pos bs s).history = s.history := rfl
@[simp] theorem deliver_faults (pos : Nat) (bs : List Byte) (s : State) : (deliver pos bs s).faults = s.faults := rfl
@[simp] theorem deliver_rxq (pos : Nat) (bs : List Byte) (s : State) : (deliver pos bs s).rxq = s.rxq := rfl
@[simp] theorem deliver_arrivals (pos : Nat) (bs : List Byte) (s : State) : (deliver pos bs s).arrivals = s.arrivals := rfl
@[simp] theorem deliver_usbDraws (pos : Nat) (bs : List Byte) (s : State) : (deliver pos bs s).usbDraws = s.usbDraws := rfl
@[simp] theorem deliver_spiDraws (pos : Nat) (bs : List Byte) (s : State) : (deliver pos bs s).spiDraws = s.spiDraws := rfl
@[simp] theorem deliver_draws (pos : Nat) (bs : List Byte) (s : State) : (deliver pos bs s).draws = s.draws := rfl
@[simp] theorem deliver_dst (pos : Nat) (bs : List Byte) (s : State) : (deliver pos bs s).dst = s.dst.write pos bs := rfl
@[simp] theorem deliver_response (pos : Nat) (bs : List Byte) (s : State) : (deliver pos bs s).response = s.response := rfl
@[simp] theorem deliver_fldAnswer (pos : Nat) (bs : List Byte) (s : State) : (deliver pos bs s).fldAnswer = s.fldAnswer := rfl
@[simp] theorem deliver_agenda (pos : Nat) (bs : List Byte) (s : State) : (deliver pos bs s).agenda = s.agenda := rfl

/-! ### arrive -/

@[simp] theorem arrive_cfg (fs : List Frame) (s : State) : (arrive fs s).cfg = s.cfg := rfl
@[simp] theorem arrive_rd (fs : List Frame) (s : State) : (arrive fs s).rd = s.rd := rfl
@[simp] theorem arrive_wr (fs : List Frame) (s : State) : (arrive fs s).wr = s.wr := rfl
@[simp] theorem arrive_sessionOpen (fs : List Frame) (s : State) : (arrive fs s).sessionOpen = s.sessionOpen := rfl
@[simp] theorem arrive_history (fs : List Frame) (s : State) : (arrive fs s).history = s.history := rfl
@[simp] theorem arrive_faults (fs : List Frame) (s : State) : (arrive fs s).faults = s.faults := rfl
@[simp] theorem arrive_rxq (fs : List Frame) (s : State) : (arrive fs s).rxq = s.rxq ++ fs := rfl
@[simp] theorem arrive_arrivals (fs : List Frame) (s : State) : (arrive fs s).arrivals = s.arrivals := rfl
@[simp] theorem arrive_usbDraws (fs : List Frame) (s : State) : (arrive fs s).usbDraws = s.usbDraws := rfl
@[simp] theorem arrive_spiDraws (fs : List Frame) (s : State) : (arrive fs s).spiDraws = s.spiDraws := rfl
@[simp] theorem arrive_draws (fs : List Frame) (s : State) : (arrive fs s).draws = s.draws := rfl
@[simp] theorem arrive_dst (fs : List Frame) (s : State) : (arrive fs s).dst = s.dst := rfl
@[simp] theorem arrive_response (fs : List Frame) (s : State) : (arrive fs s).response = s.response := rfl
@[simp] theorem arrive_fldAnswer (fs : List Frame) (s : State) : (arrive fs s).fldAnswer = s.fldAnswer := rfl
@[simp] theorem arrive_agenda (fs : List Frame) (s : State) : (arrive fs s).agenda = s.agenda := rfl

/-! ### takeArrivals -/

@[simp] theorem takeArrivals_cfg (s : State) : (takeArrivals s).cfg = s.cfg := rfl
@[simp] theorem takeArrivals_rd (s : State) : (takeArrivals s).rd = s.rd := rfl
@[simp] theorem takeArrivals_wr (s : State) : (takeArrivals s).wr = s.wr := rfl
@[simp] theorem takeArrivals_sessionOpen (s : State) : (takeArrivals s).sessionOpen = s.sessionOpen := rfl
@[simp] theorem takeArrivals_history (s : State) : (takeArrivals s).history = s.history := rfl
@[simp] theorem takeArrivals_faults (s : State) : (takeArrivals s).faults = s.faults := rfl
@[simp] theorem takeArrivals_rxq (s : State) : (takeArrivals s).rxq = s.rxq ++ s.arrivals.headD [] := rfl
@[simp] theorem takeArrivals_arrivals (s : State) : (takeArrivals s).arrivals = s.arrivals.tail := rfl
@[simp] theorem takeArrivals_usbDraws (s : State) : (takeArrivals s).usbDraws = s.usbDraws := rfl
@[simp] theorem takeArrivals_spiDraws (s : State) : (takeArrivals s).spiDraws = s.spiDraws := rfl
@[simp] theorem takeArrivals_draws (s : State) : (takeArrivals s).draws = s.draws := rfl
@[simp] theorem takeArrivals_dst (s : State) : (takeArrivals s).dst = s.dst := rfl
@[simp] theorem takeArrivals_response (s : State) : (takeArrivals s).response = s.response := rfl
@[simp] theorem takeArrivals_fldAnswer (s : State) : (takeArrivals s).fldAnswer = s.fldAnswer := rfl
@[simp] theorem takeArrivals_agenda (s : State) : (takeArrivals s).agenda = s.agenda := rfl

/-! ### submit -/

@[simp] theorem submit_cfg (b0 : Byte) (bs : List Byte) (s : State) : (submit b0 bs s).cfg = s.cfg := rfl
@[simp] theorem submit_rd (b0 : Byte) (bs : List Byte) (s : State) : (submit b0 bs s).rd = s.rd := rfl
@[simp] theorem submit_wr (b0 : Byte) (bs : List Byte) (s : State) : (submit b0 bs s).wr = s.wr := rfl
@[simp] theorem submit_sessionOpen (b0 : Byte) (bs : List Byte) (s : State) : (submit b0 bs s).sessionOpen = s.sessionOpen := rfl
@[simp] theorem submit_history (b0 : Byte) (bs : List Byte) (s : State) : (submit b0 bs s).history = s.history ++ [.submit bs (busOf b0)] := rfl
@[simp] theorem submit_faults (b0 : Byte) (bs : List Byte) (s : State) : (submit b0 bs s).faults = s.faults := rfl
@[simp] theorem submit_rxq (b0 : Byte) (bs : List Byte) (s : State) : (submit b0 bs s).rxq = s.rxq := rfl
@[simp] theorem submit_arrivals (b0 : Byte) (bs : List Byte) (s : State) : (submit b0 bs s).arrivals = s.arrivals := rfl
@[simp] theorem submit_usbDraws (b0 : Byte) (bs : List Byte) (s : State) : (submit b0 bs s).usbDraws = s.usbDraws := rfl
@[simp] theorem submit_spiDraws (b0 : Byte) (bs : List Byte) (s : State) : (submit b0 bs s).spiDraws = s.spiDraws := rfl
@[simp] theorem submit_draws (b0 : Byte) (bs : List Byte) (s : State) : (submit b0 bs s).draws = s.draws := rfl
@[simp] theorem submit_dst (b0 : Byte) (bs : List Byte) (s : State) : (submit b0 bs s).dst = s.dst := rfl
@[simp] theorem submit_response (b0 : Byte) (bs : List Byte) (s : State) : (submit b0 bs s).response = s.response := rfl
@[simp] theorem submit_fldAnswer (b0 : Byte) (bs : List Byte) (s : State) : (submit b0 bs s).fldAnswer = s.fldAnswer := rfl
@[simp] theorem submit_agenda (b0 : Byte) (bs : List Byte) (s : State) : (submit b0 bs s).agenda = s.agenda := rfl

/-! ### setSlots -/

@[simp] theorem setSlots_cfg (usb spi : Nat) (s : State) : (setSlots usb spi s).cfg = s.cfg := rfl
@[simp] theorem setSlots_rd (usb spi : Nat) (s : State) : (setSlots usb spi s).rd = s.rd := rfl
@[simp] theorem setSlots_wr (usb spi : Nat) (s : State) : (setSlots usb spi s).wr = s.wr := rfl
@[simp] theorem setSlots_sessionOpen (usb spi : Nat) (s : State) : (setSlots usb spi s).sessionOpen = s.sessionOpen := rfl
@[simp] theorem setSlots_history (usb spi : Nat) (s : State) : (setSlots usb spi s).history = s.history := rfl
@[simp] theorem setSlots_faults (usb spi : Nat) (s : State) : (setSlots usb spi s).faults = s.faults := rfl
@[simp] theorem setSlots_rxq (usb spi : Nat) (s : State) : (setSlots usb spi s).rxq = s.rxq := rfl
@[simp] theorem setSlots_arrivals (usb spi : Nat) (s : State) : (setSlots usb spi s).arrivals = s.arrivals := rfl
@[simp] theorem setSlots_usbDraws (usb spi : Nat) (s : State) : (setSlots usb spi s).usbDraws = [usb] := rfl
@[simp] theorem setSlots_spiDraws (usb spi : Nat) (s : State) : (setSlots usb spi s).spiDraws = [spi] := rfl
@[simp] theorem setSlots_draws (usb spi : Nat) (s : State) : (setSlots usb spi s).draws = s.draws := rfl
@[simp] theorem setSlots_dst (usb spi : Nat) (s : State) : (setSlots usb spi s).dst = s.dst := rfl
@[simp] theorem setSlots_response (usb spi : Nat) (s : State) : (setSlots usb spi s).response = s.response := rfl
@[simp] theorem setSlots_fldAnswer (usb spi : Nat) (s : State) : (setSlots usb spi s).fldAnswer = s.fldAnswer := rfl
@[simp] theorem setSlots_agenda (usb spi : Nat) (s : State) : (setSlots usb spi s).agenda = s.agenda := rfl

/-! ### rejectStream -/

@[simp] theorem rejectStream_cfg (b0 : Byte) (s : State) : (rejectStream b0 s).cfg = s.cfg := rfl
@[simp] theorem rejectStream_rd (b0 : Byte) (s : State) : (rejectStream b0 s).rd = s.rd := rfl
@[simp] theorem rejectStream_wr (b0 : Byte) (s : State) : (rejectStream b0 s).wr = { s.wr with reject := true } := rfl
@[simp] theorem rejectStream_sessionOpen (b0 : Byte) (s : State) : (rejectStream b0 s).sessionOpen = s.sessionOpen := rfl
@[simp] theorem rejectStream_history (b0 : Byte) (s : State) : (rejectStream b0 s).history = s.history ++ [.corruptStream b0] := rfl
@[simp] theorem rejectStream_faults (b0 : Byte) (s : State) : (rejectStream b0 s).faults = s.faults := rfl
@[simp] theorem rejectStream_rxq (b0 : Byte) (s : State) : (rejectStream b0 s).rxq = s.rxq := rfl
@[simp] theorem rejectStream_arrivals (b0 : Byte) (s : State) : (rejectStream b0 s).arrivals = s.arrivals := rfl
@[simp] theorem rejectStream_usbDraws (b0 : Byte) (s : State) : (rejectStream b0 s).usbDraws = s.usbDraws := rfl
@[simp] theorem rejectStream_spiDraws (b0 : Byte) (s : State) : (rejectStream b0 s).spiDraws = s.spiDraws := rfl
@[simp] theorem rejectStream_draws (b0 : Byte) (s : State) : (rejectStream b0 s).draws = s.draws := rfl
@[simp] theorem rejectStream_dst (b0 : Byte) (s : State) : (rejectStream b0 s).dst = s.dst := rfl
@[simp] theorem rejectStream_response (b0 : Byte) (s : State) : (rejectStream b0 s).response = s.response := rfl
@[simp] theorem rejectStream_fldAnswer (b0 : Byte) (s : State) : (rejectStream b0 s).fldAnswer = s.fldAnswer := rfl
@[simp] theorem rejectStream_agenda (b0 : Byte) (s : State) : (rejectStream b0 s).agenda = s.agenda := rfl

/-! ### showFrameHead -/

@[simp] theorem showFrameHead_cfg (b0 : Byte) (s : State) : (showFrameHead b0 s).cfg = s.cfg := rfl
@[simp] theorem showFrameHead_rd (b0 : Byte) (s : State) : (showFrameHead b0 s).rd = s.rd := rfl
@[simp] theorem showFrameHead_wr (b0 : Byte) (s : State) : (showFrameHead b0 s).wr = s.wr := rfl
@[simp] theorem showFrameHead_sessionOpen (b0 : Byte) (s : State) : (showFrameHead b0 s).sessionOpen = s.sessionOpen := rfl
@[simp] theorem showFrameHead_history (b0 : Byte) (s : State) : (showFrameHead b0 s).history = s.history := rfl
@[simp] theorem showFrameHead_faults (b0 : Byte) (s : State) : (showFrameHead b0 s).faults = s.faults := rfl
@[simp] theorem showFrameHead_rxq (b0 : Byte) (s : State) : (showFrameHead b0 s).rxq = s.rxq := rfl
@[simp] theorem showFrameHead_arrivals (b0 : Byte) (s : State) : (showFrameHead b0 s).arrivals = s.arrivals := rfl
@[simp] theorem showFrameHead_usbDraws (b0 : Byte) (s : State) : (showFrameHead b0 s).usbDraws = s.usbDraws := rfl
@[simp] theorem showFrameHead_spiDraws (b0 : Byte) (s : State) : (showFrameHead b0 s).spiDraws = s.spiDraws := rfl
@[simp] theorem showFrameHead_draws (b0 : Byte) (s : State) : (showFrameHead b0 s).draws = s.draws := rfl
@[simp] theorem showFrameHead_dst (b0 : Byte) (s : State) : (showFrameHead b0 s).dst = s.dst := rfl
@[simp] theorem showFrameHead_response (b0 : Byte) (s : State) : (showFrameHead b0 s).response = s.response := rfl
@[simp] theorem showFrameHead_fldAnswer (b0 : Byte) (s : State) : (showFrameHead b0 s).fldAnswer = some (fld s.cfg b0) := rfl
@[simp] theorem showFrameHead_agenda (b0 : Byte) (s : State) : (showFrameHead b0 s).agenda = s.agenda := rfl

/-! ### readRespond -/

@[simp] theorem readRespond_cfg (count : Nat) (s : State) : (readRespond count s).cfg = s.cfg := rfl
@[simp] theorem readRespond_rd (count : Nat) (s : State) : (readRespond count s).rd = s.rd := rfl
@[simp] theorem readRespond_wr (count : Nat) (s : State) : (readRespond count s).wr = s.wr := rfl
@[simp] theorem readRespond_sessionOpen (count : Nat) (s : State) : (readRespond count s).sessionOpen = s.sessionOpen := rfl
@[simp] theorem readRespond_history (count : Nat) (s : State) : (readRespond count s).history = s.history := rfl
@[simp] theorem readRespond_faults (count : Nat) (s : State) : (readRespond count s).faults = s.faults := rfl
@[simp] theorem readRespond_rxq (count : Nat) (s : State) : (readRespond count s).rxq = s.rxq := rfl
@[simp] theorem readRespond_arrivals (count : Nat) (s : State) : (readRespond count s).arrivals = s.arrivals := rfl
@[simp] theorem readRespond_usbDraws (count : Nat) (s : State) : (readRespond count s).usbDraws = s.usbDraws := rfl
@[simp] theorem readRespond_spiDraws (count : Nat) (s : State) : (readRespond count s).spiDraws = s.spiDraws := rfl
@[simp] theorem readRespond_draws (count : Nat) (s : State) : (readRespond count s).draws = s.draws := rfl
@[simp] theorem readRespond_dst (count : Nat) (s : State) : (readRespond count s).dst = s.dst := rfl
@[simp] theorem readRespond_response (count : Nat) (s : State) : (readRespond count s).response = some (readResponse s.cfg.lenFieldBits count (rdPending s.rd)) := rfl
@[simp] theorem readRespond_fldAnswer (count : Nat) (s : State) : (readRespond count s).fldAnswer = s.fldAnswer := rfl
@[simp] theorem readRespond_agenda (count : Nat) (s : State) : (readRespond count s).agenda = s.agenda := rfl

end Sys2Proof.Machine
end

