-- ==== Sys2Proof/Laws/Read.lean ====
section
/-! SUPPORT. What the parts of READ can do, each said once: the drain (R102, R103), the pops (R105 to R108), and the
whole operation. -/

namespace Sys2Proof.Machine

theorem Memory.write_zero_nil (m : Memory) : m.write 0 [] = m := by
  simp [Memory.write, Memory.cells]

@[simp] theorem Frame.bytes_length (f : Frame) : f.bytes.length = f.rest.length + 1 := rfl

@[simp] theorem wireBytes_nil : wireBytes [] = [] := rfl

@[simp] theorem wireBytes_cons (f : Frame) (fs : List Frame) : wireBytes (f :: fs) = f.bytes ++ wireBytes fs := rfl

@[simp] theorem wireBytes_append (fs gs : List Frame) : wireBytes (fs ++ gs) = wireBytes fs ++ wireBytes gs := by
  simp [wireBytes]

@[simp] theorem popEvents_nil : popEvents [] = [] := rfl

@[simp] theorem popEvents_cons (f : Frame) (fs : List Frame) :
    popEvents (f :: fs) = .pop f.bytes :: popEvents fs := rfl

@[simp] theorem popEvents_append (fs gs : List Frame) : popEvents (fs ++ gs) = popEvents fs ++ popEvents gs :=
  List.map_append

/-! ## What a history shows -/

@[simp] theorem shownEvents_append (h k : List Event) : shownEvents (h ++ k) = shownEvents h ++ shownEvents k :=
  List.filter_append _ _

@[simp] theorem poppedFrames_append (h k : List Event) : poppedFrames (h ++ k) = poppedFrames h ++ poppedFrames k :=
  List.filterMap_append

@[simp] theorem submittedFrames_append (h k : List Event) :
    submittedFrames (h ++ k) = submittedFrames h ++ submittedFrames k := List.filterMap_append

@[simp] theorem resumeSignals_append (h k : List Event) :
    resumeSignals (h ++ k) = resumeSignals h ++ resumeSignals k := List.filterMap_append

/-- Pop events are no part of the history a run shows. -/
@[simp] theorem shownEvents_popEvents (fs : List Frame) : shownEvents (popEvents fs) = [] := by
  induction fs with
  | nil => rfl
  | cons f fs ih => rw [popEvents_cons, shownEvents, List.filter_cons]; exact ih

@[simp] theorem poppedFrames_popEvents (fs : List Frame) : poppedFrames (popEvents fs) = fs.map Frame.bytes := by
  induction fs with
  | nil => rfl
  | cons f fs ih => rw [popEvents_cons, poppedFrames, List.filterMap_cons]; exact congrArg (f.bytes :: ·) ih

@[simp] theorem RdState.held_length (rd : RdState) : rd.held.length = rd.filled := Memory.length_readRange _ _ _

/-! ## Buffer accesses -/

/-- MemRead inside the buffer (R12). -/
theorem bufRead_ok {cfg : Config} {buf : Memory} {i n : Nat} (h : i + n ≤ cfg.ovfCap) :
    bufRead cfg buf i n = .ok (buf.readRange i n) := if_pos h

/-- MemWrite inside the buffer (R12). -/
theorem bufWrite_ok {cfg : Config} {buf : Memory} {i : Nat} {bs : List Byte} (h : i + bs.length ≤ cfg.ovfCap) :
    bufWrite cfg buf i bs = .ok (buf.write i bs) := if_pos h

/-! ## Step 1 -/

/-- With nothing pending step 1 does nothing. -/
theorem readDrain_idle {cap : Nat} {s : State} (h : s.rd.filled = 0) : readDrain cap s = .ok (0, s) := by
  unfold readDrain; rw [if_pos h]

/-- Step 1 delivers the front of the tail and shifts the remainder to the front of RD.buf (R102, R103). -/
theorem readDrain_ok {cap : Nat} {s : State} (h : s.rd.filled ≤ s.cfg.ovfCap) :
    readDrain cap s = .ok (min cap s.rd.filled,
      { s with
        dst := s.dst.write 0 (s.rd.held.take cap)
        rd := ⟨s.rd.buf.write 0 (s.rd.held.drop cap), s.rd.filled - cap⟩ }) := by
  by_cases h0 : s.rd.filled = 0
  · rw [readDrain_idle h0]
    have hh : s.rd.held = [] := by simp [RdState.held, h0]
    have hs : s.rd = ⟨s.rd.buf, 0⟩ := by rw [← h0]
    simp only [h0, hh, List.take_nil, List.drop_nil, Memory.write_zero_nil, Nat.min_zero, Nat.zero_sub]
    rw [← hs]
  · have hk : min cap s.rd.filled ≤ s.rd.filled := Nat.min_le_right _ _
    have e1 : s.rd.buf.readRange 0 (min cap s.rd.filled) = s.rd.held.take cap := by
      rw [← Memory.take_readRange _ _ hk]
      exact (List.take_eq_take_min).symm ▸ by simp [RdState.held]
    have e2 : s.rd.buf.readRange (min cap s.rd.filled) (s.rd.filled - min cap s.rd.filled) = s.rd.held.drop cap := by
      have := Memory.drop_readRange s.rd.buf 0 hk
      rw [Nat.zero_add] at this
      rw [← this]
      by_cases hc : cap ≤ s.rd.filled
      · rw [Nat.min_eq_left hc]; rfl
      · rw [Nat.min_eq_right (by omega), List.drop_eq_nil_of_le (by simp), List.drop_eq_nil_of_le (by simp; omega)]
    have e3 : s.rd.filled - min cap s.rd.filled = s.rd.filled - cap := by omega
    unfold readDrain bufRead bufWrite
    rw [if_neg h0]
    simp only
    rw [if_pos (by omega), if_pos (by omega), e1, e2]
    simp only
    rw [if_pos (by simp; omega), e3]
    rfl

/-- A state that holds more pending bytes than the buffer has stops the drain: no byte of the spec lies there. -/
theorem readDrain_overrun {cap : Nat} {s : State} (h : s.cfg.ovfCap < s.rd.filled) :
    readDrain cap s = .error .overrun := by
  unfold readDrain bufRead
  rw [if_neg (by omega)]
  simp only
  rw [if_neg (by omega : ¬ min cap s.rd.filled + (s.rd.filled - min cap s.rd.filled) ≤ s.cfg.ovfCap)]
  by_cases h1 : 0 + min cap s.rd.filled ≤ s.cfg.ovfCap
  · rw [if_pos h1]
  · rw [if_neg h1]

/-- The tail after step 1 (R103). -/
theorem held_after_drain (rd : RdState) (cap : Nat) :
    (⟨rd.buf.write 0 (rd.held.drop cap), rd.filled - cap⟩ : RdState).held = rd.held.drop cap := by
  have := Memory.readRange_write_self rd.buf 0 (rd.held.drop cap)
  rw [List.length_drop, RdState.held_length] at this
  exact this

/-- Splitting a frame that the buffer can hold (R107). -/
theorem readSplit_ok {cap pos : Nat} {bs : List Byte} {s : State} (h : bs.length ≤ s.cfg.ovfCap) :
    readSplit cap pos bs s = .ok (cap, { s with
      dst := s.dst.write pos (bs.take (cap - pos))
      rd := ⟨s.rd.buf.write 0 (bs.drop (cap - pos)), bs.length - (cap - pos)⟩ }) := by
  unfold readSplit
  rw [bufWrite_ok (by rw [List.length_drop]; omega)]
  rfl

/-! ## Pop -/

/-- What one Pop() does: the environment's arrivals join the queue, then the oldest frame is taken (R117, R216). -/
theorem pop_eq (s : State) :
    pop s = match s.rxq ++ s.arrivals.headD [] with
      | [] => (none, { s with rxq := [], arrivals := s.arrivals.tail })
      | f :: q => (some f, { s with rxq := q, arrivals := s.arrivals.tail }) := by
  unfold pop
  simp only [takeArrivals, arrive]
  split <;> rename_i h <;> simp only [h]

/-! ## Steps 2 and 3 -/

/-- The pops came to their end: `popped` are the frames taken, `m` the number of Pop() calls. -/
structure PopsDone (cap pos : Nat) (s : State) (popped : List Frame) (m : Nat) (count : Nat) (t : State) : Prop where
  /-- The state: what fits is delivered, what does not is in RD.buf. -/
  state : ∃ q, t = { s with
    dst := s.dst.write pos ((wireBytes popped).take (cap - pos))
    rd := ⟨s.rd.buf.write 0 ((wireBytes popped).drop (cap - pos)), (wireBytes popped).length - (cap - pos)⟩
    history := s.history ++ popEvents popped
    rxq := q
    arrivals := s.arrivals.drop m }
  count_eq : count = min cap (pos + (wireBytes popped).length)
  /-- FIFO: the frames popped and the frames left are the queue and what arrived. -/
  fifo : popped ++ t.rxq = s.rxq ++ (s.arrivals.take m).flatten
  popped_ok : ∀ f ∈ popped, f.Ok s.cfg
  /-- A READ that did not fill its destination met the empty queue (R108). -/
  short : count < cap → t.rxq = []
  /-- Space is tested before a pop (R105): without the last popped frame the destination was not full. -/
  room : popped ≠ [] → (wireBytes popped.dropLast).length < cap - pos
  calls : m ≤ popped.length + 1

/-- The pops ended at a frame whose length is not FLD of its first byte (R204). -/
structure PopsRaised (cap pos : Nat) (s : State) (good : List Frame) (bad : Frame) (m : Nat) (t : State) : Prop where
  state : ∃ q, t = { s with
    dst := s.dst.write pos (wireBytes good)
    history := s.history ++ popEvents (good ++ [bad])
    rxq := q
    arrivals := s.arrivals.drop m }
  fifo : good ++ bad :: t.rxq = s.rxq ++ (s.arrivals.take m).flatten
  good_ok : ∀ f ∈ good, f.Ok s.cfg
  bad_not_ok : ¬ bad.Ok s.cfg
  room : (wireBytes good).length < cap - pos

theorem flatten_take_succ {α : Type} (l : List (List α)) (m : Nat) :
    (l.take (m + 1)).flatten = l.headD [] ++ (l.tail.take m).flatten := by
  cases l <;> simp

/-- What the pops can do, from an empty RD buffer with enough fuel: come to their end, or raise RxCorrupt. They never
leave the buffer's addresses. -/
theorem readPops_cases {cap : Nat} (fuel : Nat) : ∀ {pos : Nat} {s : State}, ConfigOk s.cfg → s.dst.wf →
    s.rd.filled = 0 → pos ≤ cap → cap - pos ≤ fuel →
    (∃ popped m count t, readPops cap fuel pos s = .ok (count, t) ∧ PopsDone cap pos s popped m count t) ∨
    (∃ good bad m t, readPops cap fuel pos s = .error (.raised (.rxCorrupt bad.b0) t) ∧
      PopsRaised cap pos s good bad m t) := by
  have done : ∀ {pos : Nat} {s : State}, s.dst.wf → s.rd.filled = 0 → pos = cap →
      PopsDone cap pos s [] 0 pos s := by
    intro pos s hd h0 hp
    refine ⟨⟨s.rxq, ?_⟩, by simp; omega, by simp, by simp, by omega, by simp, by simp⟩
    have hs : (⟨s.rd.buf, 0⟩ : RdState) = s.rd := by rw [← h0]
    simp [Memory.write_zero_nil, Memory.write_nil hd, hs]
  induction fuel with
  | zero =>
    intro pos s _ hd h0 hp hf
    exact .inl ⟨[], 0, pos, s, rfl, done hd h0 (by omega)⟩
  | succ fuel ih =>
    intro pos s hc hd h0 hp hf
    by_cases hfull : cap ≤ pos
    · exact .inl ⟨[], 0, pos, s, by unfold readPops; rw [if_pos hfull], done hd h0 (by omega)⟩
    unfold readPops
    rw [if_neg hfull, pop_eq]
    cases hq : s.rxq ++ s.arrivals.headD [] with
    | nil =>
      have hx : s.rxq = [] := (List.append_eq_nil_iff.1 hq).1
      have ha : s.arrivals.headD [] = [] := (List.append_eq_nil_iff.1 hq).2
      refine .inl ⟨[], 1, pos, _, rfl, ⟨⟨[], ?_⟩, by simp; omega, ?_, by simp, by simp, by simp, by simp⟩⟩
      · have hs : (⟨s.rd.buf, 0⟩ : RdState) = s.rd := by rw [← h0]
        simp [Memory.write_zero_nil, Memory.write_nil hd, hs]
      · have := flatten_take_succ s.arrivals 0
        rw [ha] at this
        simp only [List.nil_append, hx]
        simpa using this.symm
    | cons f q =>
      simp only
      by_cases hok : f.Ok s.cfg
      · have hfld : fld s.cfg f.b0 = some f.bytes.length := hok
        have hlen := fld_range hc hfld
        rw [if_neg (not_not.2 hfld)]
        by_cases hfit : pos + f.bytes.length ≤ cap
        · rw [if_pos hfit]
          generalize hs1 : deliver pos f.bytes (emit (.pop f.bytes)
            { s with rxq := q, arrivals := s.arrivals.tail }) = s1
          have r1 : s1.cfg = s.cfg := by rw [← hs1]; rfl
          have r2 : s1.dst = s.dst.write pos f.bytes := by rw [← hs1]; rfl
          have r3 : s1.rd = s.rd := by rw [← hs1]; rfl
          have r4 : s1.history = s.history ++ [.pop f.bytes] := by rw [← hs1]; rfl
          have r5 : s1.rxq = q := by rw [← hs1]; rfl
          have r6 : s1.arrivals = s.arrivals.tail := by rw [← hs1]; rfl
          have hpos : 1 ≤ f.bytes.length := by simp
          rcases ih (pos := pos + f.bytes.length) (s := s1) (by rw [r1]; exact hc)
              (by rw [r2]; exact Memory.wf_write hd) (by rw [r3]; exact h0) hfit (by omega) with
            ⟨popped, m, count, t, he, hd'⟩ | ⟨good, bad, m, t, he, hr⟩
          · refine .inl ⟨f :: popped, m + 1, count, t, he, ?_⟩
            obtain ⟨⟨q', hst⟩, hcount, hfifo, hgood, hshort, hroom, hcalls⟩ := hd'
            have hsub : cap - (pos + f.bytes.length) = cap - pos - f.bytes.length := by omega
            refine ⟨⟨q', ?_⟩, ?_, ?_, ?_, hshort, ?_, by simp; omega⟩
            · have hw := Memory.write_append hd pos f.bytes
                ((wireBytes popped).take (cap - (pos + f.bytes.length)))
              have hl : (wireBytes popped).length - (cap - (pos + f.bytes.length)) =
                  (wireBytes (f :: popped)).length - (cap - pos) := by
                rw [wireBytes_cons, List.length_append]; omega
              rw [hst, hl, r2, r3, r4, r6, hw, hsub, wireBytes_cons, List.take_append, List.drop_append,
                List.take_of_length_le (l := f.bytes) (by omega), List.drop_eq_nil_of_le (as := f.bytes) (by omega),
                ← hs1]
              simp [deliver, emit, List.drop_tail]
            · rw [hcount, wireBytes_cons, List.length_append]; omega
            · rw [flatten_take_succ, ← List.append_assoc, hq, List.cons_append, List.cons_append]
              rw [r5, r6] at hfifo
              rw [hfifo]
            · intro g hg
              rcases List.mem_cons.1 hg with rfl | hg
              · exact hok
              · have := hgood g hg; rwa [r1] at this
            · intro _
              cases popped with
              | nil => simp; omega
              | cons g gs =>
                have := hroom (by simp)
                rw [List.dropLast_cons_cons, wireBytes_cons, List.length_append]
                omega
          · refine .inr ⟨f :: good, bad, m + 1, t, he, ?_⟩
            obtain ⟨⟨q', hst⟩, hfifo, hgood, hbad, hroom⟩ := hr
            refine ⟨⟨q', ?_⟩, ?_, ?_, by rwa [r1] at hbad, by rw [wireBytes_cons, List.length_append]; omega⟩
            · rw [hst, r2, r4, r6, Memory.write_append hd, ← hs1]
              simp [deliver, emit, List.drop_tail]
            · rw [flatten_take_succ, ← List.append_assoc, hq, List.cons_append, List.cons_append]
              rw [r5, r6] at hfifo
              rw [hfifo]
            · intro g hg
              rcases List.mem_cons.1 hg with rfl | hg
              · exact hok
              · have := hgood g hg; rwa [r1] at this
        · rw [if_neg hfit]
          have hcap := ovfCap_ge hc
          rw [readSplit_ok (by
            rw [emit_cfg]; simp only [minOvfCap, maxFrame] at hcap hlen ⊢; omega)]
          refine .inl ⟨[f], 1, cap, _, rfl, ⟨⟨q, ?_⟩, by simp at hfit ⊢; omega, ?_, ?_, by omega, by simp; omega, by simp⟩⟩
          · simp [emit]
          · simp only [emit_rxq]
            have := flatten_take_succ s.arrivals 0
            simp only [List.take_zero, List.flatten_nil, List.append_nil, Nat.zero_add] at this
            rw [this, hq]; rfl
          · simpa using hok
      · have hfld : fld s.cfg f.b0 ≠ some f.bytes.length := hok
        rw [if_pos hfld]
        refine .inr ⟨[], f, 1, _, rfl, ⟨⟨q, ?_⟩, ?_, by simp, hok, by simp; omega⟩⟩
        · simp [emit, Memory.write_nil hd]
        · simp only [emit_rxq, List.nil_append]
          have := flatten_take_succ s.arrivals 0
          simp only [List.take_zero, List.flatten_nil, List.append_nil, Nat.zero_add] at this
          rw [this, hq]

/-! ## The whole operation -/

/-- READ answered: `popped` are the frames it took, `m` its Pop() calls. -/
structure ReadDone (cap : Nat) (s : State) (popped : List Frame) (m : Nat) (t : State) : Prop where
  /-- The pending tail and the popped frames form one stream; what fits is delivered, what does not is in RD.buf. -/
  state : ∃ q, t = { s with
    dst := s.dst.write 0 ((s.rd.held ++ wireBytes popped).take cap)
    rd := ⟨s.rd.buf.write 0 ((s.rd.held ++ wireBytes popped).drop cap),
      (s.rd.held ++ wireBytes popped).length - cap⟩
    history := s.history ++ popEvents popped
    rxq := q
    arrivals := s.arrivals.drop m
    response := some (readResponse s.cfg.lenFieldBits (min cap (s.rd.held ++ wireBytes popped).length)
      (decide (0 < (s.rd.held ++ wireBytes popped).length - cap))) }
  fifo : popped ++ t.rxq = s.rxq ++ (s.arrivals.take m).flatten
  popped_ok : ∀ f ∈ popped, f.Ok s.cfg
  short : (s.rd.held ++ wireBytes popped).length < cap → t.rxq = []
  room : popped ≠ [] → (s.rd.held ++ wireBytes popped.dropLast).length < cap
  calls : m ≤ popped.length + 1

/-- What stays pending is the part of the stream behind the capacity. -/
theorem ReadDone.held {cap m : Nat} {s t : State} {popped : List Frame} (h : ReadDone cap s popped m t) :
    t.rd.held = (s.rd.held ++ wireBytes popped).drop cap := by
  obtain ⟨q, hst⟩ := h.state
  have := Memory.readRange_write_self s.rd.buf 0 ((s.rd.held ++ wireBytes popped).drop cap)
  rw [List.length_drop] at this
  rw [hst]
  exact this

/-- The bytes delivered and the bytes left pending are the whole stream. -/
theorem ReadDone.stream {cap m : Nat} {s t : State} {popped : List Frame} (h : ReadDone cap s popped m t) :
    (s.rd.held ++ wireBytes popped).take cap ++ t.rd.held = s.rd.held ++ wireBytes popped := by
  rw [h.held, List.take_append_drop]

/-- READ raised RxCorrupt at the frame `bad`, after the frames `good` (R204). -/
structure ReadRaised (cap : Nat) (s : State) (good : List Frame) (bad : Frame) (m : Nat) (t : State) : Prop where
  state : ∃ q, t = raise (.rxCorrupt bad.b0) { s with
    dst := s.dst.write 0 (s.rd.held ++ wireBytes good)
    rd := ⟨s.rd.buf, 0⟩
    history := s.history ++ popEvents (good ++ [bad])
    rxq := q
    arrivals := s.arrivals.drop m }
  fifo : good ++ bad :: t.rxq = s.rxq ++ (s.arrivals.take m).flatten
  good_ok : ∀ f ∈ good, f.Ok s.cfg
  bad_not_ok : ¬ bad.Ok s.cfg
  room : (s.rd.held ++ wireBytes good).length < cap

/-- What READ can do in an open session with a legal configuration: answer, or raise RxCorrupt. -/
theorem execRead_cases {cap : Nat} {s : State} (hc : ConfigOk s.cfg) (hd : s.dst.wf) (ho : s.sessionOpen = true)
    (hf : s.rd.filled ≤ s.cfg.ovfCap) :
    (∃ popped m t, execRead cap s = .next t ∧ ReadDone cap s popped m t) ∨
    (∃ good bad m t, execRead cap s = .next t ∧ ReadRaised cap s good bad m t) := by
  unfold execRead readBody
  rw [if_neg (by simp [ho]), readDrain_ok hf]
  by_cases hpend : s.rd.filled - cap = 0
  · simp only
    rw [if_pos hpend]
    have hle : s.rd.filled ≤ cap := by omega
    have htake : s.rd.held.take cap = s.rd.held := List.take_of_length_le (by simpa using hle)
    have hdrop : s.rd.held.drop cap = [] := List.drop_eq_nil_of_le (by simpa using hle)
    have hmin : min cap s.rd.filled = s.rd.filled := Nat.min_eq_right hle
    rw [hmin, htake, hdrop, Memory.write_zero_nil, hpend]
    have happ : ∀ bs, (s.dst.write 0 s.rd.held).write s.rd.filled bs = s.dst.write 0 (s.rd.held ++ bs) := by
      intro bs
      have := Memory.write_append hd 0 s.rd.held bs
      rwa [Nat.zero_add, RdState.held_length] at this
    generalize hs1 : ({ s with dst := s.dst.write 0 s.rd.held, rd := ⟨s.rd.buf, 0⟩ } : State) = s1
    rcases readPops_cases (cap := cap) (cap - s.rd.filled) (pos := s.rd.filled) (s := s1)
        (by rw [← hs1]; exact hc) (by rw [← hs1]; exact Memory.wf_write hd) (by rw [← hs1]) hle (le_refl _) with
      ⟨popped, m, count, t, he, hdn⟩ | ⟨good, bad, m, t, he, hr⟩
    · rw [he]
      subst hs1
      obtain ⟨⟨q, hst⟩, hcount, hfifo, hok, hshort, hroom, hcalls⟩ := hdn
      simp only at hst hcount hfifo hok
      have hlen : (s.rd.held ++ wireBytes popped).length = s.rd.filled + (wireBytes popped).length := by simp
      have e1 : (s.rd.held ++ wireBytes popped).take cap =
          s.rd.held ++ (wireBytes popped).take (cap - s.rd.filled) := by
        rw [List.take_append, htake, RdState.held_length]
      have e2 : (s.rd.held ++ wireBytes popped).drop cap = (wireBytes popped).drop (cap - s.rd.filled) := by
        rw [List.drop_append, hdrop, RdState.held_length, List.nil_append]
      have e3 : (wireBytes popped).length - (cap - s.rd.filled) =
          s.rd.filled + (wireBytes popped).length - cap := by omega
      refine .inl ⟨popped, m, readRespond count t, rfl, ⟨⟨q, ?_⟩, ?_, hok, ?_, ?_, hcalls⟩⟩
      · rw [hst, hcount, happ, e1, e2, hlen, e3]
        rfl
      · simpa using hfifo
      · intro h; exact hshort (by omega)
      · intro h; have := hroom h; simp; omega
    · rw [he]
      subst hs1
      obtain ⟨⟨q, hst⟩, hfifo, hok, hbad, hroom⟩ := hr
      simp only at hst hfifo hok
      refine .inr ⟨good, bad, m, raise (.rxCorrupt bad.b0) t, rfl, ⟨⟨q, ?_⟩, ?_, hok, hbad, by simp; omega⟩⟩
      · rw [hst, happ]
      · simpa using hfifo
  · simp only
    rw [if_neg hpend]
    have hlt : cap < s.rd.filled := by omega
    refine .inl ⟨[], 0, _, rfl, ⟨⟨s.rxq, ?_⟩, by simp, by simp, ?_, by simp, by simp⟩⟩
    · rw [Nat.min_eq_left (by omega)]
      simp [readRespond, respond, rdPending, Nat.min_eq_left (Nat.le_of_lt hlt)]
    · intro h; simp at h; omega

/-- A READ before any RESET raises NoSession and does nothing else (R202). -/
theorem execRead_noSession {cap : Nat} {s : State} (h : s.sessionOpen = false) :
    execRead cap s = .next (raise .noSession s) := by
  unfold execRead; rw [if_pos h]

end Sys2Proof.Machine
end

