-- ==== Sys2Proof/Laws/Write.lean ====
section
/-! SUPPORT. What the parts of WRITE can do, each said once: TAN (R171), the cut (R136 to R139), the completion (R133),
the extension (R135), and the whole operation. -/

namespace Sys2Proof.Machine

@[simp] theorem WrState.held_length (wr : WrState) : wr.held.length = wr.filled := Memory.length_readRange _ _ _

/-! ## TAN -/

/-- The Resume event of a check that fires. -/
abbrev resumeIf (k : TransportKind) (fire : Bool) : List Event := if fire then [.resume k] else []

/-- FreeSlots touches only the draws, and looks at nothing else (R218). -/
theorem freeSlots_spec (k : TransportKind) (s : State) : ∃ u p d,
    (freeSlots k s).2 = { s with usbDraws := u, spiDraws := p, draws := d } ∧
    ∀ h, freeSlots k { s with history := h } =
      ((freeSlots k s).1, { s with history := h, usbDraws := u, spiDraws := p, draws := d }) := by
  cases k <;> cases hu : s.usbDraws <;> cases hp : s.spiDraws <;> simp only [freeSlots, hu, hp] <;>
    exact ⟨_, _, _, rfl, fun _ => rfl⟩

/-- TAN signals USB then SPI exactly where the answer reaches the threshold, says the same in its answer, and touches
only `H` and the draws (R171, R174, R175). -/
theorem tan_spec (s : State) : ∃ u p d, tan s =
    ((decide (s.cfg.tUsb ≤ usbAnswer s), decide (s.cfg.tSpi ≤ spiAnswer s)),
      { s with
        history := s.history ++ (resumeIf .usb (decide (s.cfg.tUsb ≤ usbAnswer s)) ++
          resumeIf .spi (decide (s.cfg.tSpi ≤ spiAnswer s)))
        usbDraws := u, spiDraws := p, draws := d }) := by
  obtain ⟨u, p, d, h1, h2⟩ := freeSlots_spec .usb s
  obtain ⟨u', p', d', h3, h4⟩ := freeSlots_spec .spi (freeSlots .usb s).2
  refine ⟨u', p', d', ?_⟩
  have e1 : tanCheck .usb s = (decide (s.cfg.tUsb ≤ usbAnswer s), { (freeSlots .usb s).2 with
      history := s.history ++ resumeIf .usb (decide (s.cfg.tUsb ≤ usbAnswer s)) }) := by
    unfold tanCheck usbAnswer
    rw [h1]
    rw [show freeSlots .usb s = ((freeSlots .usb s).1, (freeSlots .usb s).2) from rfl, h1]
    rfl
  have e2 : ∀ hist, tanCheck .spi { (freeSlots .usb s).2 with history := hist } =
      (decide (s.cfg.tSpi ≤ spiAnswer s), { s with
        history := hist ++ resumeIf .spi (decide (s.cfg.tSpi ≤ spiAnswer s))
        usbDraws := u', spiDraws := p', draws := d' }) := by
    intro hist
    unfold tanCheck spiAnswer
    rw [h4 hist, h1]
    rfl
  unfold tan
  rw [e1]
  simp only
  rw [e2]
  simp [List.append_assoc]

/-- FreeSlots gives the environment's next answer and keeps the rest of both lists (R218). -/
theorem freeSlots_usb {n : Nat} {ns : List Nat} {s : State} (h : s.usbDraws = n :: ns) :
    freeSlots .usb s = (n, { s with usbDraws := ns }) := by
  unfold freeSlots; rw [h]

theorem freeSlots_spi {n : Nat} {ns : List Nat} {s : State} (h : s.spiDraws = n :: ns) :
    freeSlots .spi s = (n, { s with spiDraws := ns }) := by
  unfold freeSlots; rw [h]

/-- The answers where the state holds them. -/
theorem usbAnswer_drawn {n : Nat} {ns : List Nat} {s : State} (h : s.usbDraws = n :: ns) : usbAnswer s = n := by
  unfold usbAnswer; rw [freeSlots_usb h]

theorem spiAnswer_drawn {n : Nat} {ns : List Nat} {s : State} (h : s.spiDraws = n :: ns) : spiAnswer s = n := by
  unfold spiAnswer
  have : ∃ u d, (freeSlots .usb s).2 = { s with usbDraws := u, draws := d } := by
    cases hu : s.usbDraws <;> simp only [freeSlots, hu] <;> exact ⟨_, _, rfl⟩
  obtain ⟨u, d, e⟩ := this
  rw [e]; unfold freeSlots; simp only [h]

/-- One query takes one answer: the head of its own list, or a free value, which advances the count (R171, R218). -/
theorem freeSlots_usb_takes (s : State) : (freeSlots .usb s).2 =
    { s with usbDraws := s.usbDraws.tail, draws := s.draws + if s.usbDraws = [] then 1 else 0 } := by
  cases h : s.usbDraws <;> simp [freeSlots, h]

theorem freeSlots_spi_takes (s : State) : (freeSlots .spi s).2 =
    { s with spiDraws := s.spiDraws.tail, draws := s.draws + if s.spiDraws = [] then 1 else 0 } := by
  cases h : s.spiDraws <;> simp [freeSlots, h]

/-- TAN makes one query of each kind and takes one answer for each (R171, R257). -/
theorem tan_takes (s : State) : (tan s).2.usbDraws = s.usbDraws.tail ∧ (tan s).2.spiDraws = s.spiDraws.tail ∧
    (tan s).2.draws = s.draws + (if s.usbDraws = [] then 1 else 0) + (if s.spiDraws = [] then 1 else 0) := by
  have h : ∀ k (s : State), (tanCheck k s).2.usbDraws = (freeSlots k s).2.usbDraws ∧
      (tanCheck k s).2.spiDraws = (freeSlots k s).2.spiDraws ∧
      (tanCheck k s).2.draws = (freeSlots k s).2.draws := fun _ _ => ⟨rfl, rfl, rfl⟩
  obtain ⟨h1, h2, h3⟩ := h .spi (tanCheck .usb s).2
  obtain ⟨h4, h5, h6⟩ := h .usb s
  rw [freeSlots_spi_takes] at h1 h2 h3
  rw [freeSlots_usb_takes] at h4 h5 h6
  simp only [h4, h5, h6] at h1 h2 h3
  exact ⟨h1, h2, h3⟩

/-! ## Step 3 -/

/-- Whether TAN runs after a WRITE (R140, R178). -/
abbrev tanRuns (incomplete : Bool) (cfg : Config) : Bool := !incomplete || cfg.notifyOnIncomplete

/-- Step 3 touches only `H`, the draws and the response; it signals exactly where TAN runs and the answer reaches the
threshold (R140, R171, R175). -/
theorem writeFinish_spec (incomplete : Bool) (s : State) : ∃ u p d, writeFinish incomplete s =
    { s with
      history := s.history ++
        (resumeIf .usb (tanRuns incomplete s.cfg && decide (s.cfg.tUsb ≤ usbAnswer s)) ++
          resumeIf .spi (tanRuns incomplete s.cfg && decide (s.cfg.tSpi ≤ spiAnswer s)))
      usbDraws := u, spiDraws := p, draws := d
      response := some (writeResponse (tanRuns incomplete s.cfg && decide (s.cfg.tUsb ≤ usbAnswer s))
        (tanRuns incomplete s.cfg && decide (s.cfg.tSpi ≤ spiAnswer s)) (wrPending s.wr) s.wr.reject) } := by
  unfold writeFinish
  by_cases h : (!incomplete || s.cfg.notifyOnIncomplete) = true
  · rw [if_pos h]
    obtain ⟨u, p, d, ht⟩ := tan_spec s
    rw [ht]
    refine ⟨u, p, d, ?_⟩
    simp only [tanRuns, h, Bool.true_and]
    rfl
  · rw [if_neg h]
    refine ⟨s.usbDraws, s.spiDraws, s.draws, ?_⟩
    have h' : tanRuns incomplete s.cfg = false := by simpa using h
    simp [respond, resumeIf, h']

/-- What step 3 takes of the answers where TAN runs (R140, R257). -/
theorem writeFinish_takes {incomplete : Bool} {s : State} (h : tanRuns incomplete s.cfg = true) :
    (writeFinish incomplete s).usbDraws = s.usbDraws.tail ∧ (writeFinish incomplete s).spiDraws = s.spiDraws.tail ∧
    (writeFinish incomplete s).draws =
      s.draws + (if s.usbDraws = [] then 1 else 0) + (if s.spiDraws = [] then 1 else 0) := by
  unfold writeFinish
  rw [if_pos h]
  exact tan_takes s

/-! ## Step 2 -/

/-- What the cut leaves of the write side and says in `H`, from the bytes it could not cut (R137, R139). -/
def cutEnd (cfg : Config) (wr : WrState) : List Byte → WrState × List Event
  | [] => (wr, [])
  | b0 :: rest =>
    match fld cfg b0 with
    | none => ({ wr with reject := true }, [.corruptStream b0])
    | some n => ({ wr with buf := wr.buf.write 0 (b0 :: rest), filled := rest.length + 1, needed := n - (rest.length + 1) }, [])

theorem isCut_nil (cfg : Config) : IsCut cfg [] [] [] := ⟨rfl, by simp, trivial⟩

/-- A frame in front of a cut stream. -/
theorem IsCut.cons {cfg : Config} {f stream rest : List Byte} {frames : List (List Byte)} (hf : IsFrame cfg f)
    (h : IsCut cfg stream frames rest) : IsCut cfg (f ++ stream) (f :: frames) rest := by
  refine ⟨by rw [h.whole]; simp, ?_, h.stop⟩
  intro g hg
  rcases List.mem_cons.1 hg with rfl | hg
  · exact hf
  · exact h.frame g hg

/-- Nothing to cut off. -/
theorem IsCut.rest {cfg : Config} {rest : List Byte} (h : NoFrameYet cfg rest) : IsCut cfg rest [] rest :=
  ⟨rfl, by simp, h⟩

/-- Step 2 cuts its input: it submits the frames in order and ends as the rest says (R136 to R139). -/
theorem writeCut_spec (fuel : Nat) : ∀ {src : List Byte} {s : State}, ConfigOk s.cfg → src.length ≤ fuel →
    ∃ frames rest, IsCut s.cfg src frames rest ∧ writeCut fuel src s = .ok { s with
      history := s.history ++ (frames.map submitEvent ++ (cutEnd s.cfg s.wr rest).2)
      wr := (cutEnd s.cfg s.wr rest).1 } := by
  induction fuel with
  | zero =>
    intro src s _ h
    have : src = [] := List.eq_nil_of_length_eq_zero (by omega)
    subst this
    exact ⟨[], [], isCut_nil _, by simp [writeCut, cutEnd]⟩
  | succ fuel ih =>
    intro src s hc hl
    cases src with
    | nil => exact ⟨[], [], isCut_nil _, by simp [writeCut, cutEnd]⟩
    | cons b0 tl =>
      unfold writeCut
      cases hfld : fld s.cfg b0 with
      | none =>
        refine ⟨[], b0 :: tl, IsCut.rest (by intro n hn; simp [hfld] at hn), ?_⟩
        simp [cutEnd, hfld, rejectStream, emit]
      | some n =>
        have hn := fld_range hc hfld
        simp only
        by_cases hfit : n ≤ (b0 :: tl).length
        · rw [if_pos hfit]
          have hpos : 1 ≤ n := by simp only [minFrame] at hn; omega
          obtain ⟨k, rfl⟩ : ∃ k, n = k + 1 := ⟨n - 1, by omega⟩
          have htake : (b0 :: tl).take (k + 1) = b0 :: tl.take k := rfl
          obtain ⟨frames, rest, hcut, hw⟩ := ih (src := (b0 :: tl).drop (k + 1))
            (s := submit b0 ((b0 :: tl).take (k + 1)) s) hc (by simp at hl ⊢; omega)
          refine ⟨(b0 :: tl).take (k + 1) :: frames, rest, ?_, ?_⟩
          · have := IsCut.cons (cfg := s.cfg) (f := (b0 :: tl).take (k + 1)) (by
              rw [htake]; simp only [IsFrame, hfld, List.length_take]
              simp at hfit; simp; omega) hcut
            rwa [List.take_append_drop] at this
          · rw [hw]
            simp [submit, emit, htake, submitEvent]
        · rw [if_neg hfit]
          refine ⟨[], b0 :: tl, IsCut.rest ?_, ?_⟩
          · intro k hk
            rw [hfld] at hk; cases hk
            simpa using hfit
          · have hcap := ovfCap_ge hc
            unfold keepPartial
            rw [bufWrite_ok (by simp only [minOvfCap, maxFrame] at *; omega)]
            simp [cutEnd, hfld]

/-! ## Step 1 -/

/-- The first byte of what WR.buf holds. -/
theorem WrState.held_cons {wr : WrState} (h : 1 ≤ wr.filled) :
    ∃ tl, wr.held = wr.buf.read 0 :: tl ∧ tl.length + 1 = wr.filled := by
  obtain ⟨k, hk⟩ : ∃ k, wr.filled = k + 1 := ⟨wr.filled - 1, by omega⟩
  refine ⟨wr.buf.readRange 1 k, ?_, by simp [hk]⟩
  unfold WrState.held; rw [hk, Memory.readRange_succ]

/-- Bytes appended behind what a buffer holds. -/
theorem readRange_write_behind (m : Memory) (n : Nat) (bs : List Byte) :
    (m.write n bs).readRange 0 (n + bs.length) = m.readRange 0 n ++ bs := by
  rw [Memory.readRange_add, Memory.readRange_write_out (by omega), Nat.zero_add, Memory.readRange_write_self]

/-- Step 1 on an input shorter than what is needed (R135). -/
theorem writeExtend_ok {src : List Byte} {s : State} (h : s.wr.filled + src.length ≤ s.cfg.ovfCap) :
    writeExtend src s = .ok { s with wr := { s.wr with
      buf := s.wr.buf.write s.wr.filled src
      filled := s.wr.filled + src.length
      needed := s.wr.needed - src.length } } := by
  unfold writeExtend; rw [bufWrite_ok h]

/-- Step 1 on an input that completes the frame (R133, R134). -/
theorem writeComplete_ok {src : List Byte} {s : State} (h1 : 1 ≤ s.wr.filled) (h2 : s.wr.needed ≤ src.length)
    (h3 : s.wr.filled + s.wr.needed ≤ s.cfg.ovfCap) :
    writeComplete src s = .ok { s with
      history := s.history ++ [submitEvent (s.wr.held ++ src.take s.wr.needed)]
      wr := { s.wr with buf := s.wr.buf.write s.wr.filled (src.take s.wr.needed), filled := 0, needed := 0 } } := by
  have hl : (src.take s.wr.needed).length = s.wr.needed := by simp; omega
  unfold writeComplete
  rw [bufWrite_ok (by rw [hl]; exact h3)]
  simp only
  rw [bufRead_ok (by omega)]
  have hr := readRange_write_behind s.wr.buf s.wr.filled (src.take s.wr.needed)
  rw [hl] at hr
  rw [hr]
  obtain ⟨tl, ht, _⟩ := WrState.held_cons h1
  have h0 : (s.wr.buf.write s.wr.filled (src.take s.wr.needed)).read 0 = s.wr.buf.read 0 :=
    Memory.read_write_out (by omega)
  simp only [h0]
  rw [show s.wr.buf.readRange 0 s.wr.filled = s.wr.held from rfl, ht]
  rfl

/-! ## Steps 1 and 2 -/

/-- What steps 1 and 2 leave of the write side, from the bytes that are no whole frame yet (R135, R137, R139). -/
structure WroteRest (cfg : Config) (rest : List Byte) (wr : WrState) (ends : List Event) : Prop where
  idle : rest = [] → wr.filled = 0 ∧ wr.needed = 0 ∧ wr.reject = false ∧ ends = []
  corrupt : ∀ b0 tl, rest = b0 :: tl → fld cfg b0 = none →
    wr.filled = 0 ∧ wr.needed = 0 ∧ wr.reject = true ∧ ends = [.corruptStream b0]
  held : ∀ b0 tl n, rest = b0 :: tl → fld cfg b0 = some n →
    wr.held = rest ∧ wr.filled = rest.length ∧ wr.filled + wr.needed = n ∧ 1 ≤ wr.needed ∧ wr.reject = false ∧ ends = []

/-- The end of a cut in an idle write side. -/
theorem cutEnd_wroteRest {cfg : Config} {wr : WrState} {rest : List Byte} (hf : wr.filled = 0) (hn : wr.needed = 0)
    (hr : wr.reject = false) (hs : NoFrameYet cfg rest) :
    WroteRest cfg rest (cutEnd cfg wr rest).1 (cutEnd cfg wr rest).2 := by
  refine ⟨?_, ?_, ?_⟩
  · rintro rfl; exact ⟨hf, hn, hr, rfl⟩
  · rintro b0 tl rfl h
    simp only [cutEnd, h]
    exact ⟨hf, hn, trivial, trivial⟩
  · rintro b0 tl n rfl h
    have hlt := hs n h
    simp only [cutEnd, h]
    refine ⟨?_, rfl, by omega, by omega, hr, trivial⟩
    have := Memory.readRange_write_self wr.buf 0 (b0 :: tl)
    simpa [WrState.held] using this

/-- The memory of the write side under a cut's end. -/
theorem cutEnd_mem {cfg : Config} {wr : WrState} {rest : List Byte} (hc : ConfigOk cfg) (hs : NoFrameYet cfg rest)
    (hw : wr.buf.wf) (hi : ∀ c ∈ wr.buf, c.1 < cfg.ovfCap) :
    (cutEnd cfg wr rest).1.buf.wf ∧ ∀ c ∈ (cutEnd cfg wr rest).1.buf, c.1 < cfg.ovfCap := by
  cases rest with
  | nil => exact ⟨hw, hi⟩
  | cons b0 tl =>
    cases h : fld cfg b0 with
    | none => simp only [cutEnd, h]; exact ⟨hw, hi⟩
    | some n =>
      have := fld_range hc h; have := ovfCap_ge hc; have := hs n h
      simp only [cutEnd, h]
      refine ⟨Memory.wf_write hw, Memory.write_in hi ?_⟩
      simp only [minOvfCap, maxFrame, List.length_cons] at *
      omega

/-- What steps 1 and 2 do in an open session that is not rejecting (R61): the bytes held and the input form one
stream; its frames are submitted in order and the rest is kept or rejected. -/
theorem writeBody_spec {src : List Byte} {s : State} (hc : ConfigOk s.cfg) (hi : WrInv s) (hr : s.wr.reject = false)
    (hw : s.wr.buf.wf) (hin : ∀ c ∈ s.wr.buf, c.1 < s.cfg.ovfCap) :
    ∃ frames rest wr ends, IsCut s.cfg (s.wr.held ++ src) frames rest ∧ WroteRest s.cfg rest wr ends ∧
      wr.buf.wf ∧ (∀ c ∈ wr.buf, c.1 < s.cfg.ovfCap) ∧
      writeBody src s = .ok { s with history := s.history ++ (frames.map submitEvent ++ ends), wr := wr } := by
  have hcap := ovfCap_ge hc
  unfold writeBody
  rw [if_neg (by simp [hr])]
  rcases hi.counters with ⟨hf0, hn0⟩ | ⟨hf, hn, hfld⟩
  · rw [if_pos hn0]
    obtain ⟨frames, rest, hcut, he⟩ := writeCut_spec src.length (src := src) (s := s) hc (le_refl _)
    have hheld : s.wr.held = [] := by simp [WrState.held, hf0]
    obtain ⟨m1, m2⟩ := cutEnd_mem hc hcut.stop hw hin
    exact ⟨frames, rest, _, _, by rw [hheld]; exact hcut, cutEnd_wroteRest hf0 hn0 hr hcut.stop, m1, m2, he⟩
  · rw [if_neg (by omega)]
    have hrange := fld_range hc hfld
    obtain ⟨tl, ht, htl⟩ := WrState.held_cons hf
    simp only [maxFrame, minOvfCap] at hrange hcap
    by_cases hlt : src.length < s.wr.needed
    · rw [if_pos hlt, writeExtend_ok (by omega)]
      refine ⟨[], s.wr.held ++ src, ⟨s.wr.buf.write s.wr.filled src,
          s.wr.filled + src.length, s.wr.needed - src.length, s.wr.reject⟩, [], IsCut.rest ?_,
        ⟨?_, ?_, ?_⟩, Memory.wf_write hw, Memory.write_in hin (by omega), by simp⟩
      · rw [ht, List.cons_append]
        intro n hn'
        rw [hfld] at hn'; cases hn'
        simp; omega
      · intro h; rw [ht] at h; simp at h
      · intro b0 tl' h hb
        rw [ht, List.cons_append] at h
        rw [← (List.cons.inj h).1, hfld] at hb; cases hb
      · intro b0 tl' n h hb
        rw [ht, List.cons_append] at h
        rw [← (List.cons.inj h).1, hfld] at hb; cases hb
        refine ⟨readRange_write_behind _ _ _, by simp, ?_, ?_, hr, rfl⟩
        · simp only; omega
        · simp only; omega
    · rw [if_neg hlt, writeComplete_ok hf (by omega) (by omega)]
      simp only
      have hlen : (src.take s.wr.needed).length = s.wr.needed := by simp; omega
      have hwf1 := Memory.wf_write (a := s.wr.filled) (bs := src.take s.wr.needed) hw
      have hin1 := Memory.write_in (a := s.wr.filled) (bs := src.take s.wr.needed) hin (by rw [hlen]; omega)
      generalize hs1 : ({ s with
        history := s.history ++ [submitEvent (s.wr.held ++ src.take s.wr.needed)]
        wr := { s.wr with buf := s.wr.buf.write s.wr.filled (src.take s.wr.needed), filled := 0, needed := 0 } } : State)
        = s1
      have c1 : s1.cfg = s.cfg := by rw [← hs1]
      have w1 : s1.wr = ⟨s.wr.buf.write s.wr.filled (src.take s.wr.needed), 0, 0, s.wr.reject⟩ := by rw [← hs1]
      obtain ⟨frames, rest, hcut, he⟩ := writeCut_spec src.length (src := src.drop s.wr.needed) (s := s1)
        (by rw [c1]; exact hc) (by simp)
      rw [c1, w1] at he
      rw [c1] at hcut
      obtain ⟨m1, m2⟩ := cutEnd_mem (wr := ⟨s.wr.buf.write s.wr.filled (src.take s.wr.needed), 0, 0, s.wr.reject⟩) hc hcut.stop hwf1 hin1
      have hframe : IsFrame s.cfg (s.wr.held ++ src.take s.wr.needed) := by
        rw [ht, List.cons_append]
        simp only [IsFrame, hfld, List.length_append]
        rw [hlen]; simp; omega
      have hcut' := IsCut.cons hframe hcut
      rw [List.append_assoc, List.take_append_drop] at hcut'
      refine ⟨_, rest, _, _, hcut', cutEnd_wroteRest (wr := ⟨s.wr.buf.write s.wr.filled (src.take s.wr.needed), 0, 0, s.wr.reject⟩) rfl rfl hr hcut.stop,
        m1, m2, ?_⟩
      rw [he, ← hs1]
      simp

/-- A rejecting write side discards its input (R132). -/
theorem writeBody_rejecting {src : List Byte} {s : State} (h : s.wr.reject = true) : writeBody src s = .ok s := by
  unfold writeBody; rw [if_pos h]

/-- A WRITE before any RESET raises NoSession and does nothing else (R202). -/
theorem execWrite_noSession {src : List Byte} {s : State} (h : s.sessionOpen = false) :
    execWrite src s = .next (raise .noSession s) := by
  unfold execWrite; rw [if_pos h]

/-- WRITE in an open session, from what steps 1 and 2 did. -/
theorem execWrite_ok {src : List Byte} {s t : State} (ho : s.sessionOpen = true) (h : writeBody src s = .ok t) :
    execWrite src s = .next (writeFinish (writeIncomplete src s.wr) t) := by
  unfold execWrite; rw [if_neg (by simp [ho]), h]; rfl

/-! ## The whole operation -/

/-- FreeSlots answers the same whatever `H` and the write side hold. -/
theorem usbAnswer_congr (s : State) (h : List Event) (wr : WrState) :
    usbAnswer { s with history := h, wr := wr } = usbAnswer s := by
  cases hu : s.usbDraws <;> simp [usbAnswer, freeSlots, hu]

theorem spiAnswer_congr (s : State) (h : List Event) (wr : WrState) :
    spiAnswer { s with history := h, wr := wr } = spiAnswer s := by
  cases hu : s.usbDraws <;> cases hp : s.spiDraws <;> simp [spiAnswer, freeSlots, hu, hp]

/-- The resume signals of a WRITE of `src` in `s` (R140, R171). -/
abbrev writeFires (k : TransportKind) (src : List Byte) (s : State) : Bool :=
  tanRuns (writeIncomplete src s.wr) s.cfg &&
    decide (threshold s.cfg k ≤ match k with | .usb => usbAnswer s | .spi => spiAnswer s)

/-- WRITE answered: `new` are the events of steps 1 and 2, `wr` is the write side after them. -/
structure WriteDone (src : List Byte) (s : State) (new : List Event) (wr : WrState) (t : State) : Prop where
  state : ∃ u p d, t = { s with
    history := s.history ++ new ++ (resumeIf .usb (writeFires .usb src s) ++ resumeIf .spi (writeFires .spi src s))
    wr := wr
    usbDraws := u, spiDraws := p, draws := d
    response := some (writeResponse (writeFires .usb src s) (writeFires .spi src s) (wrPending wr) wr.reject) }

/-- Step 3 after steps 1 and 2. -/
theorem writeFinish_done (src : List Byte) (s : State) (new : List Event) (wr : WrState) :
    WriteDone src s new wr
      (writeFinish (writeIncomplete src s.wr) { s with history := s.history ++ new, wr := wr }) := by
  obtain ⟨u, p, d, h⟩ := writeFinish_spec (writeIncomplete src s.wr) { s with history := s.history ++ new, wr := wr }
  refine ⟨u, p, d, ?_⟩
  rw [h, usbAnswer_congr, spiAnswer_congr]
  rfl

/-- What WRITE does in an open session that is not rejecting (R61): it cuts the bytes held and its input. -/
theorem execWrite_cut {src : List Byte} {s : State} (hc : ConfigOk s.cfg) (ho : s.sessionOpen = true) (hi : WrInv s)
    (hr : s.wr.reject = false) (hw : s.wr.buf.wf) (hin : ∀ c ∈ s.wr.buf, c.1 < s.cfg.ovfCap) :
    ∃ frames rest wr ends t, IsCut s.cfg (s.wr.held ++ src) frames rest ∧ WroteRest s.cfg rest wr ends ∧
      wr.buf.wf ∧ (∀ c ∈ wr.buf, c.1 < s.cfg.ovfCap) ∧ execWrite src s = .next t ∧
      WriteDone src s (frames.map submitEvent ++ ends) wr t := by
  obtain ⟨frames, rest, wr, ends, h1, h2, h3, h4, h5⟩ := writeBody_spec (src := src) hc hi hr hw hin
  exact ⟨frames, rest, wr, ends, _, h1, h2, h3, h4, execWrite_ok ho h5, writeFinish_done src s _ wr⟩

/-- What WRITE does while the write side rejects: steps 1 and 2 do nothing (R132). -/
theorem execWrite_rejecting {src : List Byte} {s : State} (ho : s.sessionOpen = true) (hr : s.wr.reject = true) :
    ∃ t, execWrite src s = .next t ∧ WriteDone src s [] s.wr t := by
  have h := writeFinish_done src s [] s.wr
  rw [List.append_nil] at h
  exact ⟨_, execWrite_ok ho (writeBody_rejecting hr), h⟩

/-- The answers a WRITE takes in an open session where TAN runs: one of each kind (R171, R257). -/
theorem execWrite_takes {src : List Byte} {s t : State} (hc : ConfigOk s.cfg) (ho : s.sessionOpen = true)
    (hi : WrInv s) (hw : s.wr.buf.wf) (hin : ∀ c ∈ s.wr.buf, c.1 < s.cfg.ovfCap)
    (hr : tanRuns (writeIncomplete src s.wr) s.cfg = true) (h : execWrite src s = .next t) :
    t.usbDraws = s.usbDraws.tail ∧ t.spiDraws = s.spiDraws.tail ∧
    t.draws = s.draws + (if s.usbDraws = [] then 1 else 0) + (if s.spiDraws = [] then 1 else 0) := by
  cases hj : s.wr.reject with
  | true =>
    rw [execWrite_ok ho (writeBody_rejecting hj)] at h
    cases h
    exact writeFinish_takes hr
  | false =>
    obtain ⟨frames, rest, wr, ends, _, _, _, _, hb⟩ := writeBody_spec (src := src) hc hi hj hw hin
    rw [execWrite_ok ho hb] at h
    cases h
    exact writeFinish_takes (s := { s with history := s.history ++ (frames.map submitEvent ++ ends), wr := wr }) hr

end Sys2Proof.Machine
end

