-- ==== Sys2Proof/Laws/Cut.lean ====
section
/-! SUPPORT. The cut of a stream into frames (R61, R82): there is one, there is only one, and cuts join. -/

namespace Sys2Proof.Machine

/-- A stream has one cut. -/
theorem IsCut.unique {cfg : Config} {frames : List (List Byte)} :
    ∀ {stream rest frames' rest'}, IsCut cfg stream frames rest →
      IsCut cfg stream frames' rest' → frames = frames' ∧ rest = rest' := by
  have nof : ∀ f tl, IsFrame cfg f → ¬ NoFrameYet cfg (f ++ tl) := by
    intro f tl h hn
    cases f with
    | nil => exact h
    | cons b t => have := hn _ h; simp at this
  induction frames with
  | nil =>
    intro stream rest frames' rest' h h'
    cases frames' with
    | nil => exact ⟨rfl, by have := h.whole; have := h'.whole; simp_all⟩
    | cons f fs =>
      exfalso
      have h1 := h.whole; rw [h'.whole] at h1; simp at h1
      have := h.stop; rw [← h1] at this
      exact nof f _ (h'.frame f (by simp)) this
  | cons f fs ih =>
    intro stream rest frames' rest' h h'
    cases frames' with
    | nil =>
      exfalso
      have h1 := h.whole; rw [h'.whole] at h1; simp at h1
      have := h'.stop; rw [h1] at this
      exact nof f _ (h.frame f (by simp)) this
    | cons g gs =>
      have h1 := h.whole; rw [h'.whole] at h1; simp at h1
      have hf := h.frame f (by simp); have hg := h'.frame g (by simp)
      cases f with
      | nil => exact absurd hf (by simp [IsFrame])
      | cons b t => cases g with
        | nil => exact absurd hg (by simp [IsFrame])
        | cons c u =>
          simp only [IsFrame] at hf hg
          have hbc := h1; simp at hbc
          rw [hbc.1, hf] at hg
          simp at hg
          have := List.append_inj hbc.2 (by omega)
          have hi := ih (stream := fs.flatten ++ rest) (rest := rest) (frames' := gs) (rest' := rest') ⟨rfl,
              fun b hb => h.frame b (by simp [hb]), h.stop⟩ ⟨by rw [this.2], fun b hb => h'.frame b (by simp [hb]),
              h'.stop⟩
          exact ⟨by rw [hbc.1, this.1, hi.1], hi.2⟩

/-- Every stream has a cut. -/
theorem IsCut.exists_of_length (cfg : Config) : ∀ n (stream : List Byte), stream.length ≤ n → ∃ frames rest,
    IsCut cfg stream frames rest := by
  intro n
  induction n with
  | zero => intro st h; have : st = [] := List.eq_nil_of_length_eq_zero (by omega)
            subst this; exact ⟨[], [], ⟨rfl, by simp, trivial⟩⟩
  | succ n ih =>
    intro st h
    cases st with
    | nil => exact ⟨[], [], ⟨rfl, by simp, trivial⟩⟩
    | cons b tl =>
      by_cases hs : NoFrameYet cfg (b :: tl)
      · exact ⟨[], _, ⟨by simp, by simp, hs⟩⟩
      · simp only [NoFrameYet] at hs; push Not at hs
        obtain ⟨k, hk, hle⟩ := hs
        have := fld_pos hk; simp only [headSize] at this
        obtain ⟨frames, rest, hc⟩ := ih ((b :: tl).drop k) (by simp at h ⊢; omega)
        obtain ⟨j, rfl⟩ : ∃ j, k = j + 1 := ⟨k - 1, by omega⟩
        refine ⟨(b :: tl.take j) :: frames, rest, ⟨?_, ?_, hc.stop⟩⟩
        · have := hc.whole; simp at this; simp [← this]
        · intro bs hb; rcases List.mem_cons.1 hb with rfl | hb
          · simp [IsFrame, hk]; omega
          · exact hc.frame _ hb

/-- A cut goes on from what the cut of the front left. -/
theorem IsCut.append {cfg : Config} {a b : List Byte} {fs gs r1 r2} (h1 : IsCut cfg a fs r1) (h2 : IsCut cfg (r1 ++ b) gs r2) : IsCut cfg (a ++ b) (fs ++ gs) r2 :=
  ⟨by rw [h1.whole, List.append_assoc, h2.whole]; simp,
      fun bs hb => by rcases List.mem_append.1 hb with h | h; exact h1.frame _ h; exact h2.frame _ h, h2.stop⟩

/-- Step 2 needs no more fuel than there are bytes. -/
theorem writeCut_fuel {f g : Nat} {src : List Byte} {s : State} (hf : src.length ≤ f) (hg : src.length ≤ g) : writeCut f src s = writeCut g src s := by
  induction f generalizing g src s with
  | zero => have : src = [] := List.eq_nil_of_length_eq_zero (by omega)
            subst this; cases g <;> simp [writeCut]
  | succ f ih =>
    cases src with
    | nil => cases g <;> simp [writeCut]
    | cons b tl =>
      cases g with
      | zero => simp at hg
      | succ g =>
        unfold writeCut
        cases hb : fld s.cfg b with
        | none => rfl
        | some n =>
          have := fld_pos hb
          simp only [headSize] at this
          simp only
          split
          · apply ih <;> simp at hf hg ⊢ <;> omega
          · rfl

end Sys2Proof.Machine
end

