-- ==== Sys2Proof/Laws/PerInstr.lean ====
section
/-! SUPPORT. A statement for every instruction, as syntax: what its encoding looks like on the wire (R71, R83 to R87). -/

namespace Sys2Proof.Laws.EncodeShape

/-- An operation's word fits 8 + LEN_FIELD_BITS bits, is none of the illegal words and says how many data bytes stand
beside it; a FRAME_CODE row's byte is the one byte of that row with its BUS and FD. -/
def Statement (i : Instr) : Prop :=
  ∀ lfb, i.wf lfb = true →
    match encode i with
    | .command word data =>
      word < 2 ^ (8 + lfb) ∧ ¬ IllegalCommandWord lfb word ∧
        data.length = if bits word 1 0 = 2 then bits word (7 + lfb) 8 else 0
    | .frameHead b0 => decodeFrameHead b0 = i

/-- The word of an operation 1, 2 or 3 whose LEN field fits, 0 for RESET. -/
theorem command_shape {op len lfb : Nat} (hop : op = 1 ∨ op = 2 ∨ op = 3) (hl : len < 2 ^ lfb)
    (h0 : op = 3 → len = 0) :
    commandWord op len < 2 ^ (8 + lfb) ∧ ¬ IllegalCommandWord lfb (commandWord op len) := by
  have h4 : op < 4 := by omega
  refine ⟨commandWord_lt h4 hl, ?_⟩
  unfold IllegalCommandWord
  rw [bits_op op len h4, bits_rsv op len h4, bits_len h4 hl]
  omega

theorem read (cap : Nat) : Statement (.read cap) := by
  intro lfb h
  have hl : cap < 2 ^ lfb := by simpa [Instr.wf] using h
  obtain ⟨h1, h2⟩ := command_shape (op := 1) (.inl rfl) hl (by omega)
  exact ⟨h1, h2, by rw [bits_op 1 cap (by omega)]; rfl⟩

theorem write (src : List Byte) : Statement (.write src) := by
  intro lfb h
  have hl : src.length < 2 ^ lfb := by simpa [Instr.wf] using h
  obtain ⟨h1, h2⟩ := command_shape (op := 2) (.inr (.inl rfl)) hl (by omega)
  exact ⟨h1, h2, by rw [bits_op 2 _ (by omega), bits_len (by omega) hl]; rfl⟩

theorem reset : Statement .reset := by
  intro lfb _
  obtain ⟨h1, h2⟩ := command_shape (op := 3) (len := 0) (lfb := lfb) (.inr (.inr rfl)) (Nat.two_pow_pos _) (by omega)
  exact ⟨h1, h2, by rw [bits_op 3 0 (by omega)]; rfl⟩

theorem frameCode0 (bus : BusId) (fd : Bool) : Statement (.frameCode0 bus fd) := by
  intro _ _; simp [encode, decodeFrameHead]

theorem frameCode1 (bus : BusId) (fd : Bool) : Statement (.frameCode1 bus fd) := by
  intro _ _; simp [encode, decodeFrameHead]

theorem frameCode2 (bus : BusId) (fd : Bool) : Statement (.frameCode2 bus fd) := by
  intro _ _; simp [encode, decodeFrameHead]

theorem frameCode3 (bus : BusId) (fd : Bool) : Statement (.frameCode3 bus fd) := by
  intro _ _; simp [encode, decodeFrameHead]

theorem frameCode4 (bus : BusId) (fd : Bool) : Statement (.frameCode4 bus fd) := by
  intro _ _; simp [encode, decodeFrameHead]

theorem frameCode5 (bus : BusId) (fd : Bool) : Statement (.frameCode5 bus fd) := by
  intro _ _; simp [encode, decodeFrameHead]

theorem frameCode6 (bus : BusId) (fd : Bool) : Statement (.frameCode6 bus fd) := by
  intro _ _; simp [encode, decodeFrameHead]

theorem frameCode7 (bus : BusId) (fd : Bool) : Statement (.frameCode7 bus fd) := by
  intro _ _; simp [encode, decodeFrameHead]

theorem frameCode8 (bus : BusId) (fd : Bool) : Statement (.frameCode8 bus fd) := by
  intro _ _; simp [encode, decodeFrameHead]

theorem frameCode9 (bus : BusId) (fd : Bool) : Statement (.frameCode9 bus fd) := by
  intro _ _; simp [encode, decodeFrameHead]

theorem frameCode10 (bus : BusId) (fd : Bool) : Statement (.frameCode10 bus fd) := by
  intro _ _; simp [encode, decodeFrameHead]

theorem frameCode11 (bus : BusId) (fd : Bool) : Statement (.frameCode11 bus fd) := by
  intro _ _; simp [encode, decodeFrameHead]

theorem frameCode12 (bus : BusId) (fd : Bool) : Statement (.frameCode12 bus fd) := by
  intro _ _; simp [encode, decodeFrameHead]

theorem frameCode13 (bus : BusId) (fd : Bool) : Statement (.frameCode13 bus fd) := by
  intro _ _; simp [encode, decodeFrameHead]

theorem frameCode14 (bus : BusId) (fd : Bool) : Statement (.frameCode14 bus fd) := by
  intro _ _; simp [encode, decodeFrameHead]

theorem frameCode15 (bus : BusId) (fd : Bool) : Statement (.frameCode15 bus fd) := by
  intro _ _; simp [encode, decodeFrameHead]

end Sys2Proof.Laws.EncodeShape
end

