-- ==== Sys2Proof/Laws/Step.lean ====
section
/-! SUPPORT. What an operation keeps in every state, an open session or not, and what a step can do at all (R201, R206,
R214). -/

namespace Sys2Proof.Machine

/-- `H` grows at its end; the write side, the faults, the session and the configuration stay. -/
abbrev PopsKeep (s t : State) : Prop :=
  s.history <+: t.history ∧ t.faults = s.faults ∧ t.sessionOpen = s.sessionOpen ∧ t.cfg = s.cfg ∧ t.wr = s.wr

/-- What the pops keep, however they end: `H` grows at its end, and the write side and the bookkeeping stay. -/
theorem readPops_kept {cap fuel : Nat} : ∀ {pos : Nat} {s : State},
   (∀ n t, readPops cap fuel pos s = .ok (n, t) → PopsKeep s t) ∧
   (∀ r t, readPops cap fuel pos s = .error (.raised r t) → PopsKeep s t) := by
  induction fuel with
  | zero => intro pos s; constructor
            · intro n t h; simp [readPops] at h; obtain ⟨_, rfl⟩ := h; simp [PopsKeep]
            · intro r t h; simp [readPops] at h
  | succ fuel ih =>
    intro pos s
    unfold readPops
    by_cases hc : cap ≤ pos
    · rw [if_pos hc]; constructor
      · intro n t h; simp at h; obtain ⟨_, rfl⟩ := h; simp [PopsKeep]
      · intro r t h; simp at h
    · rw [if_neg hc, pop_eq]
      cases hq : s.rxq ++ s.arrivals.headD [] with
      | nil => constructor
               · intro n t h; simp at h; obtain ⟨_, rfl⟩ := h; simp [PopsKeep]
               · intro r t h; simp at h
      | cons f q =>
        simp only
        split
        · constructor
          · intro n t h; simp at h
          · intro r t h; simp at h; obtain ⟨_, rfl⟩ := h; simp [PopsKeep]
        · split
          · obtain ⟨i1, i2⟩ := @ih (pos + f.bytes.length)
              (deliver pos f.bytes (emit (.pop f.bytes) { s with rxq := q, arrivals := s.arrivals.tail }))
            constructor
            · intro n t h; obtain ⟨a, b, c, d, e⟩ := i1 n t h
              exact ⟨(List.prefix_append _ _).trans a, b, c, d, e⟩
            · intro n t h; obtain ⟨a, b, c, d, e⟩ := i2 n t h
              exact ⟨(List.prefix_append _ _).trans a, b, c, d, e⟩
          · unfold readSplit
            constructor
            · intro n t h; split at h
              · simp at h; obtain ⟨_, rfl⟩ := h; simp [PopsKeep]
              · simp at h
            · intro n t h; split at h
              · simp at h
              · rename_i e he; simp at h; subst h; unfold bufWrite at he; split at he <;> simp at he

/-- What a READ that answers keeps, in every state. -/
theorem read_kept {cap : Nat} {s t : State} (h : execRead cap s = .next t) : s.history <+: t.history ∧
    (∀ r ∈ s.faults, r ∈ t.faults) ∧ t.sessionOpen = s.sessionOpen ∧ t.cfg = s.cfg ∧ t.wr = s.wr := by
  have hr : ∀ r (s : State), ∀ x ∈ s.faults, x ∈ (raise r s).faults := by
    intro r s x hx; simp only [raise]; split <;> simp [hx]
  unfold execRead at h
  split at h
  · cases h; exact ⟨List.prefix_rfl, hr _ _, rfl, rfl, rfl⟩
  · unfold readBody at h
    by_cases hf : s.rd.filled ≤ s.cfg.ovfCap
    · rw [readDrain_ok hf] at h
      simp only at h
      by_cases h0 : s.rd.filled - cap = 0
      · rw [if_pos h0] at h
        generalize hs1 : ({ s with
          dst := s.dst.write 0 (s.rd.held.take cap)
          rd := ⟨s.rd.buf.write 0 (s.rd.held.drop cap), s.rd.filled - cap⟩ } : State) = s1 at h
        obtain ⟨i1, i2⟩ := @readPops_kept cap (cap - min cap s.rd.filled) (min cap s.rd.filled) s1
        cases hp : readPops cap (cap - min cap s.rd.filled) (min cap s.rd.filled) s1 with
        | ok p =>
          obtain ⟨n, t'⟩ := p
          rw [hp] at h; simp [conclude] at h; subst h
          have := i1 n t' hp; subst hs1
          exact ⟨this.1, by simpa [readRespond] using fun r hr => by rw [this.2.1]; exact hr, this.2.2⟩
        | error e =>
          rw [hp] at h
          cases e with
          | raised r t' => simp [conclude] at h; subst h
                           have := i2 r t' hp; subst hs1
                           exact ⟨this.1, fun x hx => hr _ _ x (by rw [this.2.1]; exact hx), this.2.2⟩
          | overrun => simp [conclude] at h
      · rw [if_neg h0] at h; simp [conclude] at h; subst h; exact ⟨List.prefix_rfl, fun _ h => h, rfl, rfl, rfl⟩
    · rw [readDrain_overrun (by omega)] at h; simp [conclude] at h

/-- What step 2 of WRITE keeps. -/
theorem writeCut_kept {fuel : Nat} : ∀ {src : List Byte} {s t : State}, writeCut fuel src s = .ok t →
   s.history <+: t.history ∧ t.faults = s.faults ∧ t.sessionOpen = s.sessionOpen ∧ t.cfg = s.cfg ∧ t.rd = s.rd ∧
       (s.wr.reject = true → t.wr.reject = true) := by
  induction fuel with
  | zero => intro src s t h; simp [writeCut] at h; subst h; simp
  | succ fuel ih =>
    intro src s t h
    cases src with
    | nil => simp [writeCut] at h; subst h; simp
    | cons b tl =>
      unfold writeCut at h
      split at h
      · simp at h; subst h; simp [rejectStream]
      · simp only at h; split at h
        · have := ih h
          simp only [submit] at this
          exact ⟨(List.prefix_append _ _).trans this.1, this.2⟩
        · unfold keepPartial at h; split at h
          · simp at h; subst h; simp
          · simp at h

/-- What a WRITE that answers keeps, in every state. -/
theorem write_kept {src} {s t : State} (h : execWrite src s = .next t) : s.history <+: t.history ∧
    (∀ r ∈ s.faults, r ∈ t.faults) ∧ t.sessionOpen = s.sessionOpen ∧ t.cfg = s.cfg ∧ t.rd = s.rd ∧
    (s.wr.reject = true → t.wr.reject = true) := by
  have hr : ∀ r (s : State), ∀ x ∈ s.faults, x ∈ (raise r s).faults := by
    intro r s x hx; simp only [raise]; split <;> simp [hx]
  have hfin : ∀ b (s : State), s.history <+: (writeFinish b s).history ∧ (writeFinish b s).faults = s.faults ∧
      (writeFinish b s).sessionOpen = s.sessionOpen ∧ (writeFinish b s).cfg = s.cfg ∧ (writeFinish b s).rd = s.rd ∧
      ((writeFinish b s).wr = s.wr) := by
    intro b s; obtain ⟨u, p, d, hs⟩ := writeFinish_spec b s; rw [hs]; simp
  unfold execWrite at h
  split at h
  · cases h; exact ⟨List.prefix_rfl, hr _ _, rfl, rfl, rfl, id⟩
  · cases hb : writeBody src s with
    | error e =>
      rw [hb] at h; simp only [conclude] at h
      -- which error?
      exfalso
      cases e with
      | overrun => simp at h
      | raised r t' =>
        clear h
        have hcut : ∀ fuel src (s : State) r t, writeCut fuel src s ≠ .error (.raised r t) := by
          intro fuel; induction fuel with
          | zero => intros; simp [writeCut]
          | succ fuel ih =>
            intro src s r t h
            cases src with
            | nil => simp [writeCut] at h
            | cons b tl =>
              unfold writeCut at h; split at h
              · simp at h
              · simp only at h; split at h
                · exact ih _ _ _ _ h
                · unfold keepPartial bufWrite at h; split at h
                  · simp at h
                  · rename_i he; split at he
                    · simp at he
                    · simp at he; subst he; simp at h
        unfold writeBody at hb
        split at hb
        · simp at hb
        · split at hb
          · exact hcut _ _ _ _ _ hb
          · split at hb
            · unfold writeExtend bufWrite at hb
              split at hb
              · rename_i he; split at he
                · simp at he
                · simp at he; subst he; simp at hb
              · simp at hb
            · split at hb
              · rename_i he
                unfold writeComplete bufWrite bufRead at he
                simp at hb; subst hb
                split at he
                · rename_i h1; split at h1 <;> simp at h1
                  subst h1; simp at he
                · split at he
                  · rename_i h1; split at h1 <;> simp at h1
                    subst h1; simp at he
                  · simp at he
              · exact hcut _ _ _ _ _ hb
    | ok t' =>
      rw [hb] at h; simp [conclude] at h; subst h
      obtain ⟨f1, f2, f3, f4, f5, f6⟩ := hfin (writeIncomplete src s.wr) t'
      have hbody : s.history <+: t'.history ∧ t'.faults = s.faults ∧ t'.sessionOpen = s.sessionOpen ∧
          t'.cfg = s.cfg ∧ t'.rd = s.rd ∧ (s.wr.reject = true → t'.wr.reject = true) := by
        unfold writeBody at hb
        split at hb
        · simp at hb; subst hb; simp
        · split at hb
          · exact writeCut_kept hb
          · split at hb
            · unfold writeExtend at hb; split at hb
              · simp at hb
              · simp at hb; subst hb; simp
            · split at hb
              · simp at hb
              · rename_i s' he
                unfold writeComplete at he
                split at he
                · simp at he
                · split at he
                  · simp at he
                  · simp at he
                    have := writeCut_kept hb
                    subst he
                    simp only at this
                    exact ⟨(List.prefix_append _ _).trans this.1, this.2⟩
      refine ⟨hbody.1.trans f1, ?_, f3.trans hbody.2.2.1, f4.trans hbody.2.2.2.1, f5.trans hbody.2.2.2.2.1,
          by rw [f6]; exact hbody.2.2.2.2.2⟩
      rw [f2, hbody.2.1]; exact fun _ h => h

/-- Every way a step can answer a next state: an instruction that its wire decodes to, no move,
    an illegal command word,
or a move of the surroundings. -/
theorem step_cases {s t : State} (h : step s = .next t) : ConfigOk s.cfg ∧ s.faults = [] ∧
    ((∃ w i rest, s.agenda = .wire w :: rest ∧ decode s.cfg.lenFieldBits w = .ok i ∧
        exec i { s with agenda := rest } = .next t) ∨
      (t = s ∧ (s.agenda = [] ∨
        ∃ w rest, s.agenda = .wire w :: rest ∧ decode s.cfg.lenFieldBits w = .error .dataPending)) ∨
      (∃ word data why rest, s.agenda = .wire (.command word data) :: rest ∧
        decode s.cfg.lenFieldBits (.command word data) = .error why ∧
        (why = .illegalOp ∨ why = .reservedBits ∨ why = .resetWithLen) ∧
        t = raise (.illegalCommand word) { s with agenda := rest }) ∨
      (∃ f rest, s.agenda = .canRx f :: rest ∧ t = { s with agenda := rest, rxq := s.rxq ++ [f] }) ∨
      (∃ u p rest, s.agenda = .slots u p :: rest ∧
        t = { s with agenda := rest, usbDraws := [u], spiDraws := [p] })) := by
  unfold step issue at h
  split at h
  · cases h
  · rename_i hc
    split at h
    · rename_i hf
      refine ⟨hc, hf, ?_⟩
      unfold issueInput at h
      split at h
      · rename_i ha; cases h; exact .inr (.inl ⟨rfl, .inl ha⟩)
      · rename_i w rest ha
        unfold issueWire at h
        split at h
        · rename_i hd; exact .inl ⟨_, _, rest, ha, hd, h⟩
        · rename_i _ hd; cases h; exact .inr (.inl ⟨rfl, .inr ⟨_, rest, ha, hd⟩⟩)
        · rename_i word data hd; cases h
          exact .inr (.inr (.inl ⟨word, data, _, rest, ha, hd, .inl rfl, rfl⟩))
        · rename_i word data hd; cases h
          exact .inr (.inr (.inl ⟨word, data, _, rest, ha, hd, .inr (.inl rfl), rfl⟩))
        · rename_i word data hd; cases h
          exact .inr (.inr (.inl ⟨word, data, _, rest, ha, hd, .inr (.inr rfl), rfl⟩))
        · cases h
      · rename_i f rest ha; cases h; exact .inr (.inr (.inr (.inl ⟨f, rest, ha, rfl⟩)))
      · rename_i u p rest ha; cases h; exact .inr (.inr (.inr (.inr ⟨u, p, rest, ha, rfl⟩)))
    · cases h

end Sys2Proof.Machine
end

