-- ==== Sys2Proof/Tests/Slice0.lean ====
section
/-! SUPPORT. The model's own tests: the spec's vectors (95_test_vectors.md), one step on a small state each, and a state
that meets the hypotheses of each statement that has any. -/

namespace Sys2Proof.Tests

open Machine

/-! ## Configurations, frames and states of 95_test_vectors.md -/

/-- The default configuration with the illustrative thresholds T_USB = 2 and T_SPI = 3. -/
def cfgT : Config := { defaultConfig with tUsb := 2, tSpi := 3 }

/-- LEN_TABLE[9] = none (FV-18, EV-04). -/
def cfgNo9 : Config := { cfgT with lenTable := cfgT.lenTable.set 9 none }

def frameA : Frame := ⟨0x80#8, [0x18#8, 0x09#8, 0x00#8, 0x00#8, 0x99#8, 0x01#8, 0x02#8, 0x03#8, 0x04#8, 0x05#8, 0x06#8, 0x07#8, 0x08#8]⟩
def frameB : Frame := ⟨0x12#8, [0xF8#8, 0x3F#8, 0x00#8, 0x00#8, 0x7F#8, 0xAA#8]⟩
def frameZ : Frame := ⟨0x04#8, [0x80#8, 0x00#8, 0x00#8, 0x00#8, 0x84#8]⟩

/-- The payload 10..4F of frame X. -/
def payloadX : List Byte := (List.range 64).map fun i => BitVec.ofNat 8 (0x10 + i)

def frameX : Frame := ⟨0xF1#8, [0x84#8, 0x88#8, 0xD7#8, 0xC6#8, 0xEC#8] ++ payloadX⟩

/-- After RESET, slots USB 0 and SPI 0 (sections 5 and 6). -/
def sIdle : State := { State.reset with cfg := cfgT, usbDraws := [0], spiDraws := [0] }

/-- RV-04's end: the last four bytes of A pending, Z queued. -/
def sTail : State :=
  { sIdle with
    rd := ⟨[(0, 0x05#8), (1, 0x06#8), (2, 0x07#8), (3, 0x08#8)], 4⟩
    history := [.pop frameA.bytes]
    rxq := [frameZ] }

/-- WV-04's end: the first two bytes of B held. -/
def sPart : State := { sIdle with wr := ⟨[(0, 0x12#8), (1, 0xF8#8)], 2, 5, false⟩ }

/-- The write side rejecting (EV-04's end, but for its history). -/
def sRej : State := { sIdle with cfg := cfgNo9, wr := ⟨[], 0, 0, true⟩ }

/-- A state at power-on whose registers hold other values than after RESET. -/
def sPower : State := { sIdle with rd := ⟨[], 5⟩, wr := ⟨[], 3, 9, true⟩, sessionOpen := false }

/-- The next state's fields that a vector shows. -/
def after {α : Type} (f : State → α) (o : Host.Outcome State Fault Refusal) : Option α := (nextState o).map f

/-! ## Well-formedness: one ill-formed instruction for each check -/

/-- R100: C is at most 2^24 - 1. -/
theorem test_wf_read : (Instr.read 16777216).wf 24 = false ∧ (Instr.read 16777215).wf 24 = true := by decide

/-- R130: L is at most 2^LEN_FIELD_BITS - 1, here with LEN_FIELD_BITS = 7. -/
theorem test_wf_write : (Instr.write (List.replicate 128 0#8)).wf 7 = false ∧
    (Instr.write (List.replicate 127 0#8)).wf 7 = true := by
  simp only [Instr.wf, List.length_replicate]; decide

/-! ## Decoding: words written out bit by bit (R72, R83, R84) -/

/-- CV-01, CV-06: LEN in bits 31:8, RSV 000000 in bits 7:2, OP 01. -/
theorem test_decode_read :
    decode 24 (.command 0b000000000000000001000000_000000_01 []) = .ok (.read 64) ∧
    decode 24 (.command 0b111111111111111111111111_000000_01 []) = .ok (.read 16777215) := by decide

/-- CV-02, CV-05: OP 10, LEN = 14 with A's bytes, LEN = 0 with none. -/
theorem test_decode_write :
    decode 24 (.command 0b000000000000000000001110_000000_10 frameA.bytes) = .ok (.write frameA.bytes) ∧
    decode 24 (.command 0b000000000000000000000000_000000_10 []) = .ok (.write []) := by decide

/-- CV-03: OP 11. -/
theorem test_decode_reset :
    decode 24 (.command 0b000000000000000000000000_000000_11 []) = .ok .reset := by decide

/-- CV-08 to CV-13: no operation. -/
theorem test_decode_rejects :
    decode 24 (.command 0 []) = .error .illegalOp ∧
    decode 24 (.command 0b000001_00 []) = .error .reservedBits ∧
    decode 24 (.command 0b000000000000000000000001_000000_11 []) = .error .resetWithLen ∧
    decode 24 (.command 0b111111_11 []) = .error .reservedBits := by decide

/-- Byte 0 is CODE in bits 7:4, BUS in bits 3:1, FD in bit 0 (R72): rows 0 to 7. -/
theorem test_decode_frame_codes_low :
    decode 24 (.frameHead 0b0000_010_0#8) = .ok (.frameCode0 2#3 false) ∧
    decode 24 (.frameHead 0b0001_001_0#8) = .ok (.frameCode1 1#3 false) ∧
    decode 24 (.frameHead 0b0010_100_1#8) = .ok (.frameCode2 4#3 true) ∧
    decode 24 (.frameHead 0b0011_000_0#8) = .ok (.frameCode3 0#3 false) ∧
    decode 24 (.frameHead 0b0100_111_1#8) = .ok (.frameCode4 7#3 true) ∧
    decode 24 (.frameHead 0b0101_011_0#8) = .ok (.frameCode5 3#3 false) ∧
    decode 24 (.frameHead 0b0110_110_0#8) = .ok (.frameCode6 6#3 false) ∧
    decode 24 (.frameHead 0b0111_101_1#8) = .ok (.frameCode7 5#3 true) := by decide

/-- The same for rows 8 to 15. -/
theorem test_decode_frame_codes_high :
    decode 24 (.frameHead 0b1000_111_1#8) = .ok (.frameCode8 7#3 true) ∧
    decode 24 (.frameHead 0b1001_000_0#8) = .ok (.frameCode9 0#3 false) ∧
    decode 24 (.frameHead 0b1010_001_1#8) = .ok (.frameCode10 1#3 true) ∧
    decode 24 (.frameHead 0b1011_010_0#8) = .ok (.frameCode11 2#3 false) ∧
    decode 24 (.frameHead 0b1100_100_0#8) = .ok (.frameCode12 4#3 false) ∧
    decode 24 (.frameHead 0b1101_110_1#8) = .ok (.frameCode13 6#3 true) ∧
    decode 24 (.frameHead 0b1110_011_0#8) = .ok (.frameCode14 3#3 false) ∧
    decode 24 (.frameHead 0b1111_000_1#8) = .ok (.frameCode15 0#3 true) := by decide

/-- The table's numbering: a row of 32 bits, a row of 8 bits, and a WRITE whose data bytes are zeros (log 18). -/
theorem test_table_words :
    decodeTableWord 32 0x00004001 = some (.read 64) ∧ decodeTableWord 32 0x00000202 = some (.write [0#8, 0#8]) ∧
    decodeTableWord 32 3 = some .reset ∧ decodeTableWord 8 0xF1 = some (.frameCode15 0#3 true) := by decide

/-! ## Frames built from their fields (section 2, SX-08) -/

theorem test_frame_a : (FrameFields.mk 8#4 0#3 false 0x123#29 false false false [1#8, 2#8, 3#8, 4#8, 5#8, 6#8, 7#8, 8#8]).toFrame =
    frameA := by decide

theorem test_frame_x : (FrameFields.mk 15#4 0#3 true 0x18DAF110#29 true false false payloadX).toFrame = frameX := by decide

/-! ## One step each -/

/-- RV-10: two whole frames, the third split. -/
theorem test_read_splits : after (fun t => (returned t, t.response, t.rd.held, t.rxq))
    (exec (.read 16) { sIdle with rxq := [frameZ, frameZ, frameB] }) =
    some ([0x04#8, 0x80#8, 0x00#8, 0x00#8, 0x00#8, 0x84#8, 0x04#8, 0x80#8, 0x00#8, 0x00#8, 0x00#8, 0x84#8,
      0x12#8, 0xF8#8, 0x3F#8, 0x00#8], some 0x01000010, [0x00#8, 0x7F#8, 0xAA#8], []) := by decide

/-- RV-05: the pending tail, then a frame that fits exactly. -/
theorem test_read_drains : after (fun t => (returned t, t.response, t.rd.filled, t.rxq)) (exec (.read 10) sTail) =
    some ([0x05#8, 0x06#8, 0x07#8, 0x08#8, 0x04#8, 0x80#8, 0x00#8, 0x00#8, 0x00#8, 0x84#8], some 0x0000000A, 0, []) := by
  decide

/-- WV-13 with AV-04's answers: B completed, A begun, both transports signalled. -/
theorem test_write_completes : after (fun t => (t.history, t.response, t.wr.held, t.wr.needed))
    (exec (.write [0x3F#8, 0x00#8, 0x00#8, 0x7F#8, 0xAA#8, 0x80#8, 0x18#8, 0x09#8])
      { sPart with usbDraws := [5], spiDraws := [3] }) =
    some ([.submit frameB.bytes 1#3, .resume .usb, .resume .spi], some 0x00000007, [0x80#8, 0x18#8, 0x09#8], 11) := by
  decide

/-- EV-04: A whole, then an unrecognised code; the rest is discarded. -/
theorem test_write_rejects : after (fun t => (t.history, t.response, t.wr.reject, t.wr.needed))
    (exec (.write (frameA.bytes ++ [0x90#8, 0x01#8, 0x02#8, 0x03#8, 0x04#8, 0x05#8] ++ frameB.bytes))
      { sIdle with cfg := cfgNo9 }) =
    some ([.submit frameA.bytes 0#3, .corruptStream 0x90#8], some 0x00000008, true, 0) := by decide

/-- XV-01 and XV-04: the counters and the rejection go, the queue stays. -/
theorem test_reset : after (fun t => (t.rd.filled, t.response, t.rxq)) (exec .reset sTail) = some (0, some 0, [frameZ]) ∧
    after (fun t => (t.wr.filled, t.wr.needed, t.wr.reject, t.sessionOpen)) (exec .reset sRej) =
      some (0, 0, false, true) := by decide

/-- RV-14: power-on, no RESET yet. -/
theorem test_no_session : after (fun t => (t.faults, t.response)) (exec (.read 64) sPower) = some ([.noSession], none) := by
  decide

/-- FV-00 to FV-07: the answers of FLD. -/
theorem test_frame_codes_low :
    after State.fldAnswer (exec (.frameCode0 0#3 false) sIdle) = some (some (some 6)) ∧
    after State.fldAnswer (exec (.frameCode1 0#3 false) sIdle) = some (some (some 7)) ∧
    after State.fldAnswer (exec (.frameCode2 0#3 false) sIdle) = some (some (some 8)) ∧
    after State.fldAnswer (exec (.frameCode3 0#3 false) sIdle) = some (some (some 9)) ∧
    after State.fldAnswer (exec (.frameCode4 0#3 false) sIdle) = some (some (some 10)) ∧
    after State.fldAnswer (exec (.frameCode5 0#3 false) sIdle) = some (some (some 11)) ∧
    after State.fldAnswer (exec (.frameCode6 0#3 false) sIdle) = some (some (some 12)) ∧
    after State.fldAnswer (exec (.frameCode7 0#3 false) sIdle) = some (some (some 13)) := by decide

/-- FV-08 to FV-18. -/
theorem test_frame_codes_high :
    after State.fldAnswer (exec (.frameCode8 7#3 true) sIdle) = some (some (some 14)) ∧
    after State.fldAnswer (exec (.frameCode9 0#3 false) sIdle) = some (some (some 18)) ∧
    after State.fldAnswer (exec (.frameCode9 0#3 false) sRej) = some (some none) ∧
    after State.fldAnswer (exec (.frameCode10 0#3 false) sIdle) = some (some (some 22)) ∧
    after State.fldAnswer (exec (.frameCode11 0#3 false) sIdle) = some (some (some 26)) ∧
    after State.fldAnswer (exec (.frameCode12 0#3 false) sIdle) = some (some (some 30)) ∧
    after State.fldAnswer (exec (.frameCode13 0#3 false) sIdle) = some (some (some 38)) ∧
    after State.fldAnswer (exec (.frameCode14 0#3 false) sIdle) = some (some (some 54)) ∧
    after State.fldAnswer (exec (.frameCode15 0#3 false) sIdle) = some (some (some 70)) := by decide

/-! ## States that meet the hypotheses -/

theorem test_config_ok : ConfigOk cfgT ∧ ConfigOk cfgNo9 := by decide

/-- A state with nothing pending and nothing listed is ready. -/
theorem ready_of_idle {s : State} (hc : ConfigOk s.cfg) (ho : s.sessionOpen = true) (hr : s.rd = ⟨[], 0⟩)
    (hw : s.wr.buf = [] ∧ s.wr.filled = 0 ∧ s.wr.needed = 0) (hd : s.dst = []) : Ready s := by
  refine ⟨hc, ⟨⟨?_, ?_, ?_, ?_, ?_⟩, fun _ => ⟨?_, ?_⟩, fun _ => ⟨.inl hw.2, fun _ => hw.2⟩⟩, ho⟩ <;>
    simp only [hr, hw.1, hd] <;> first | exact Memory.wf_nil | simp

theorem test_ready_idle : Ready sIdle := ready_of_idle (by decide) rfl rfl ⟨rfl, rfl, rfl⟩ rfl

/-- sIdle with A and Z queued. -/
def sQueue : State := { sIdle with rxq := [frameA, frameZ] }

theorem test_ready_queue : Ready sQueue := ready_of_idle (by decide) rfl rfl ⟨rfl, rfl, rfl⟩ rfl

/-- EV-05's start, with A before the frame of code 9. -/
def frame9 : Frame := ⟨0x90#8, List.replicate 17 0#8⟩

def sBad : State := { sIdle with cfg := cfgNo9, rxq := [frameA, frame9, frameZ] }

theorem test_ready_bad : Ready sBad := ready_of_idle (by decide) rfl rfl ⟨rfl, rfl, rfl⟩ rfl

/-- The write side idle under LEN_TABLE[9] = none. -/
def sNo9 : State := { sIdle with cfg := cfgNo9 }

theorem test_ready_no9 : Ready sNo9 := ready_of_idle (by decide) rfl rfl ⟨rfl, rfl, rfl⟩ rfl

theorem test_ready_rejecting : Ready sRej := ready_of_idle (by decide) rfl rfl ⟨rfl, rfl, rfl⟩ rfl

theorem test_inv_tail : Inv sTail :=
  ⟨⟨by decide, by decide, by decide, by decide, by decide⟩,
    fun _ => ⟨by decide, fun _ => ⟨frameA.bytes, 10, by decide, by decide, by decide, by decide⟩⟩,
    fun _ => ⟨by decide, by decide⟩⟩

theorem test_ready_tail : Ready sTail := ⟨by decide, test_inv_tail, rfl⟩

theorem test_ready_part : Ready sPart :=
  ⟨by decide, ⟨⟨by decide, by decide, by decide, by decide, by decide⟩,
    fun _ => ⟨by decide, fun h => absurd h (by decide)⟩, fun _ => ⟨by decide, by decide⟩⟩, rfl⟩

/-- sPart with NOTIFY_ON_INCOMPLETE = false (AV-06). -/
def sQuiet : State := { sPart with cfg := { cfgT with notifyOnIncomplete := false } }

theorem test_ready_quiet : Ready sQuiet :=
  ⟨by decide, ⟨⟨by decide, by decide, by decide, by decide, by decide⟩,
    fun _ => ⟨by decide, fun h => absurd h (by decide)⟩, fun _ => ⟨by decide, by decide⟩⟩, rfl⟩

theorem test_queue_ok : QueueOk sTail ∧ QueueOk sQueue ∧ QueueOk sPart := by
  refine ⟨⟨?_, ?_⟩, ⟨?_, ?_⟩, ⟨?_, ?_⟩⟩ <;> simp [sTail, sQueue, sPart, sIdle, State.reset, Frame.Ok] <;> decide

/-! ## A witness for the hypotheses of each statement that has any -/

theorem test_meets_decode_of_encode : (Instr.read 16777215).wf 24 = true ∧ (Instr.read 127).wf 7 = true ∧
    (Instr.write []).wf 7 = true := by decide

theorem test_meets_encode_of_decode : decode 7 (.command 0x7F01 []) = .ok (.read 127) ∧
    decode 7 (.frameHead 0xFF#8) = .ok (.frameCode15 7#3 true) := by decide

/-- The three clauses of R87, and legal words at the ends of the range. -/
theorem test_meets_illegal_command_words :
    ConfigOk sIdle.cfg ∧ sIdle.faults = [] ∧
    { sIdle with agenda := [.wire (.command 0x103 [])] }.agenda = .wire (.command 0x103 []) :: [] ∧
    IllegalCommandWord 24 0 ∧ IllegalCommandWord 24 0xFFFFFFFD ∧ IllegalCommandWord 24 0x103 ∧
    ¬ IllegalCommandWord 24 3 ∧ ¬ IllegalCommandWord 24 1 ∧ ¬ IllegalCommandWord 24 0xFFFFFF02 ∧
    0xFFFFFFFD < 2 ^ (8 + sIdle.cfg.lenFieldBits) := by
  unfold IllegalCommandWord; decide

theorem test_meets_fld_bounds : ConfigOk cfgT ∧ fld cfgT 0x00#8 = some 6 ∧ fld cfgT 0xF0#8 = some 70 ∧
    codeOf 0x8F#8 = codeOf 0x80#8 := by decide

theorem test_meets_step_runs : ConfigOk sIdle.cfg ∧ sIdle.faults = [] ∧
    { sIdle with agenda := [.wire (.command 3 [])] }.agenda = .wire (.command 3 []) :: [] ∧
    decode sIdle.cfg.lenFieldBits (.command 3 []) = .ok .reset := by decide

theorem test_meets_write_waits : ConfigOk sIdle.cfg ∧ sIdle.faults = [] ∧
    { sIdle with agenda := [.wire (.command 0x202 [0x12#8])] }.agenda = .wire (.command 0x202 [0x12#8]) :: [] ∧
    0x202 < 2 ^ (8 + sIdle.cfg.lenFieldBits) ∧ bits 0x202 1 0 = 2 ∧ bits 0x202 7 2 = 0 ∧
    [0x12#8].length < bits 0x202 (7 + sIdle.cfg.lenFieldBits) 8 := by decide

theorem test_meets_surroundings : ConfigOk sIdle.cfg ∧ sIdle.faults = [] ∧
    { sIdle with agenda := [.canRx frameA] }.agenda = .canRx frameA :: [] ∧
    { sIdle with agenda := [.slots 5 0] }.agenda = .slots 5 0 :: [] := by decide

theorem test_meets_quiescent : ConfigOk { sIdle with faults := [.noSession] }.cfg ∧
    { sIdle with faults := [.noSession] }.faults ≠ [] := by decide

/-- Each constraint broken at its boundary, and each met there. -/
theorem test_meets_bad_configurations :
    ¬ ConfigOk { cfgT with ovfCap := 71 } ∧ ¬ ConfigOk { cfgT with lenTable := cfgT.lenTable.set 9 (some 65) } ∧
    ¬ ConfigOk { cfgT with lenTable := cfgT.lenTable.set 15 none } ∧ ¬ ConfigOk { cfgT with lenFieldBits := 6 } ∧
    ConfigOk { cfgT with ovfCap := 72, lenFieldBits := 7 } := by decide

/-- A step from a state with a pending tail, in an open session. -/
theorem test_meets_invariant_kept : Inv { sTail with agenda := [.canRx frameB] } ∧
    ∃ t, step { sTail with agenda := [.canRx frameB] } = .next t :=
  ⟨⟨⟨test_inv_tail.mem.rdWf, test_inv_tail.mem.rdIn, test_inv_tail.mem.wrWf, test_inv_tail.mem.wrIn,
      test_inv_tail.mem.dstWf⟩, fun h => ⟨(test_inv_tail.rd h).bound, (test_inv_tail.rd h).tail⟩,
      fun h => ⟨(test_inv_tail.wr h).counters, (test_inv_tail.wr h).reject⟩⟩, _, rfl⟩

/-- A step in an open session, and RESET from a state that holds a record. -/
theorem test_meets_bookkeeping : (∃ t, step sTail = .next t) ∧ sTail.sessionOpen = true ∧
    ∃ t, exec .reset { sTail with faults := [.noSession] } = .next t ∧
      FaultRecord.noSession ∈ { sTail with faults := [.noSession] }.faults :=
  ⟨⟨_, rfl⟩, rfl, _, rfl, by decide⟩

/-- C below the tail, C equal to it (no frame popped), C one above it (one byte of Z delivered, five left pending). -/
theorem test_meets_read_drains : Ready sTail ∧ 0 < sTail.rd.filled ∧ 3 < sTail.rd.filled ∧ sTail.rd.filled ≤ 4 ∧
    (∃ t, exec (.read 4) sTail = .next t ∧ t.history = sTail.history) ∧ sTail.rd.filled ≤ 5 ∧
    (∃ t, exec (.read 5) sTail = .next t ∧ t.rd.held = frameZ.bytes.drop 1) :=
  ⟨test_ready_tail, by decide, by decide, by decide, ⟨_, rfl, by decide⟩, by decide, _, rfl, by decide⟩

/-- Filled by the tail alone (C = 4), by the tail and Z (C = 10). -/
theorem test_meets_read_exact_fit : Ready sTail ∧ sTail.arrivals = [] ∧ sTail.rxq = [] ++ [frameZ] ∧
    sTail.rd.filled + (wireBytes []).length = 4 ∧ sTail.rxq = [frameZ] ++ [] ∧ (∀ f ∈ [frameZ], f.Ok sTail.cfg) ∧
    sTail.rd.filled + (wireBytes [frameZ]).length = 10 :=
  ⟨test_ready_tail, rfl, rfl, by decide, rfl, test_queue_ok.1.1, by decide⟩

/-- Z split after its first byte (C = 5) and before its last (C = 9). -/
theorem test_meets_read_splits : Ready sTail ∧ sTail.arrivals = [] ∧ sTail.rxq = [] ++ frameZ :: [] ∧
    (∀ g ∈ ([] : List Frame), g.Ok sTail.cfg) ∧ frameZ.Ok sTail.cfg ∧
    sTail.rd.filled + (wireBytes []).length < 5 ∧ 9 < sTail.rd.filled + (wireBytes []).length + frameZ.bytes.length :=
  ⟨test_ready_tail, rfl, rfl, by simp, test_queue_ok.1.1 _ (by simp [sTail]), by decide, by decide⟩

theorem test_meets_read_empties : Ready sTail ∧ sTail.arrivals = [] ∧ (∀ f ∈ sTail.rxq, f.Ok sTail.cfg) ∧
    sTail.rd.filled + (wireBytes sTail.rxq).length < 11 :=
  ⟨test_ready_tail, rfl, test_queue_ok.1.1, by decide⟩

/-- For the count, the response bits, the stream, the frame and the pops of READ. -/
theorem test_meets_read_general : Ready sTail ∧ QueueOk sTail ∧ 16777215 < 2 ^ sTail.cfg.lenFieldBits ∧
    (∃ t, exec (.read 5) sTail = .next t ∧ t.response ≠ none ∧ countOf t ≤ 5 ∧ t.rd.filled ≤ 5) :=
  ⟨test_ready_tail, test_queue_ok.1, by decide, _, rfl, by decide, by decide, by decide⟩

/-- The frame after A raises; one destination byte is left for it (C = 15). -/
theorem test_meets_rx_corrupt : Ready sBad ∧ sBad.arrivals = [] ∧ sBad.rxq = [frameA] ++ frame9 :: [frameZ] ∧
    (∀ g ∈ [frameA], g.Ok sBad.cfg) ∧ ¬ frame9.Ok sBad.cfg ∧ sBad.faults = [] ∧
    sBad.rd.filled + (wireBytes [frameA]).length < 15 := by
  refine ⟨test_ready_bad, rfl, rfl, ?_, ?_, rfl, by decide⟩ <;> simp [Frame.Ok] <;> decide

theorem test_meets_no_session : sPower.sessionOpen = false ∧ sPower.faults = [] := ⟨rfl, rfl⟩

theorem test_meets_reads_in_chunks : Ready sQueue ∧ sQueue.rd.filled = 0 ∧ sQueue.arrivals = [] ∧
    (∀ f ∈ sQueue.rxq, f.Ok sQueue.cfg) ∧ (∀ c ∈ [1, 19], 1 ≤ c ∧ c < 2 ^ sQueue.cfg.lenFieldBits) ∧
    (wireBytes sQueue.rxq).length ≤ [1, 19].sum :=
  ⟨test_ready_queue, rfl, rfl, test_queue_ok.2.1.1, by decide, by decide⟩

theorem test_meets_drain : Ready sTail ∧ sTail.arrivals = [] ∧ (∀ f ∈ sTail.rxq, f.Ok sTail.cfg) ∧
    1 ≤ 1 ∧ 1 < 2 ^ sTail.cfg.lenFieldBits ∧ sTail.rd.filled + (wireBytes sTail.rxq).length < 11 :=
  ⟨test_ready_tail, rfl, test_queue_ok.1.1, by decide, by decide, by decide⟩

/-- Exactly the five missing bytes of B. -/
theorem test_meets_write_completes : Ready sPart ∧ sPart.wr.reject = false ∧ 0 < sPart.wr.needed ∧
    sPart.wr.needed ≤ [0x3F#8, 0x00#8, 0x00#8, 0x7F#8, 0xAA#8].length := ⟨test_ready_part, by decide⟩

/-- One byte short of B, and no byte at all. -/
theorem test_meets_write_extends : Ready sPart ∧ sPart.wr.reject = false ∧
    [0x3F#8, 0x00#8, 0x00#8, 0x7F#8].length < sPart.wr.needed ∧ ([] : List Byte).length < sPart.wr.needed :=
  ⟨test_ready_part, by decide⟩

theorem test_meets_write_whole_frame : Ready sIdle ∧ sIdle.wr.reject = false ∧ sIdle.wr.needed = 0 ∧
    IsFrame sIdle.cfg frameA.bytes ∧ IsFrame sIdle.cfg frameX.bytes :=
  ⟨test_ready_idle, rfl, rfl, by simp only [Frame.bytes, IsFrame]; decide, by simp only [Frame.bytes, IsFrame]; decide⟩

/-- B's first byte alone, and all of B but its last. -/
theorem test_meets_write_trailing : Ready sIdle ∧ sIdle.wr.reject = false ∧ sIdle.wr.needed = 0 ∧
    fld sIdle.cfg 0x12#8 = some 7 ∧ ([] : List Byte).length + 1 < 7 ∧
    [0xF8#8, 0x3F#8, 0x00#8, 0x00#8, 0x7F#8].length + 1 < 7 := ⟨test_ready_idle, by decide⟩

theorem test_meets_write_unrecognised : Ready sNo9 ∧ sNo9.wr.reject = false ∧ sNo9.wr.needed = 0 ∧
    fld sNo9.cfg 0x9F#8 = none := ⟨test_ready_no9, by decide⟩

theorem test_meets_write_rejecting : Ready sRej ∧ sRej.wr.reject = true := ⟨test_ready_rejecting, rfl⟩

/-- A cut that ends in nothing, in a partial frame, in an unrecognised code. -/
theorem test_meets_cut : IsCut cfgNo9 frameZ.bytes [frameZ.bytes] [] ∧
    IsCut cfgNo9 [0x12#8, 0xF8#8] [] [0x12#8, 0xF8#8] ∧ ¬ Unrecognised cfgNo9 [0x12#8, 0xF8#8] ∧
    IsCut cfgNo9 (frameZ.bytes ++ [0x90#8]) [frameZ.bytes] [0x90#8] ∧ Unrecognised cfgNo9 [0x90#8] := by
  have hz : ∀ bs ∈ [frameZ.bytes], IsFrame cfgNo9 bs := by
    intro bs h
    rw [List.mem_singleton.1 h]
    simp only [Frame.bytes, IsFrame]
    decide
  have h9 : fld cfgNo9 0x90#8 = none := by decide
  have h1 : fld cfgNo9 0x12#8 = some 7 := by decide
  refine ⟨⟨by simp, hz, trivial⟩, ⟨by simp, by simp, ?_⟩, ?_, ⟨by simp, hz, ?_⟩, h9⟩
  · intro n h; rw [h1] at h; cases h; decide
  · simp [Unrecognised, h1]
  · intro n h; rw [h9] at h; cases h

/-- For the cut, the bits and the frame of WRITE: a partial frame pending, the write side not rejecting. -/
theorem test_meets_write_general : Ready sPart ∧ sPart.wr.reject = false ∧ ∃ t, exec (.write [0x3F#8]) sPart = .next t :=
  ⟨test_ready_part, rfl, _, rfl⟩

/-- Every chunk one byte, one of them empty. -/
theorem test_meets_reassembly : Ready sNo9 ∧ sNo9.wr.reject = false ∧ sNo9.wr.needed = 0 ∧
    IsCut sNo9.cfg ([[0x12#8], [], [0xF8#8]] : List (List Byte)).flatten [] [0x12#8, 0xF8#8] :=
  ⟨test_ready_no9, rfl, rfl, test_meets_cut.2.1⟩

theorem test_meets_submitted : Ready sPart ∧ ∃ t new, exec (.write [0x3F#8, 0x00#8, 0x00#8, 0x7F#8, 0xAA#8]) sPart =
    .next t ∧ t.history = sPart.history ++ new ∧ .submit frameB.bytes 1#3 ∈ new :=
  ⟨test_ready_part, _, [.submit frameB.bytes 1#3], rfl, by decide, by decide⟩

/-- By the frame's end (L = 5), and by NOTIFY_ON_INCOMPLETE (L = 4); one answer of each kind at hand. -/
theorem test_meets_admission : Ready sPart ∧ sPart.wr.needed ≤ (List.replicate 5 0#8).length ∧
    ¬ sPart.wr.needed ≤ (List.replicate 4 0#8).length ∧ sPart.cfg.notifyOnIncomplete = true ∧
    sPart.usbDraws = 0 :: [] ∧ sPart.spiDraws = 0 :: [] := ⟨test_ready_part, by decide⟩

/-- No answer left in either list. -/
theorem test_meets_admission_free : Ready { sIdle with usbDraws := [], spiDraws := [] } ∧
    { sIdle with usbDraws := [], spiDraws := [] }.wr.needed ≤ ([] : List Byte).length :=
  ⟨ready_of_idle (by decide) rfl rfl ⟨rfl, rfl, rfl⟩ rfl, by decide⟩

theorem test_meets_admission_skipped : Ready sQuiet ∧ sQuiet.wr.reject = false ∧
    (List.replicate 4 0#8).length < sQuiet.wr.needed ∧ sQuiet.cfg.notifyOnIncomplete = false :=
  ⟨test_ready_quiet, by decide⟩

/-- The bytes that stay of WR.buf: below the appended ones and behind them, behind the trailing partial. -/
theorem test_meets_write_frame : Ready sPart ∧ (∃ t, exec (.write (List.replicate 5 0#8)) sPart = .next t ∧
    t.wr.filled ≤ 1) ∧ 1 < sPart.wr.filled ∧ sPart.wr.filled + min (List.replicate 5 0#8).length sPart.wr.needed ≤ 7 :=
  ⟨test_ready_part, ⟨_, rfl, by decide⟩, by decide, by decide⟩

theorem test_meets_split : 1 ≤ 2 ∧ splitChunks 2 3 [1#8, 2#8, 3#8] = [[1#8, 2#8]] ++ [[3#8]] := by decide

theorem test_meets_reset_idempotent : ∃ t, exec .reset sRej = .next t := ⟨_, rfl⟩

theorem test_meets_reset_discards : Ready sTail ∧ sTail.arrivals = [] ∧ (∀ f ∈ sTail.rxq, f.Ok sTail.cfg) ∧
    (∃ t, exec .reset sTail = .next t) ∧ (∀ c ∈ [0, 16777215], c < 2 ^ sTail.cfg.lenFieldBits) :=
  ⟨test_ready_tail, rfl, test_queue_ok.1.1, ⟨_, rfl⟩, by decide⟩

theorem test_meets_power_on : AtPowerOn sPower ∧ MemInv sPower ∧ ConfigOk sPower.cfg :=
  ⟨⟨rfl, rfl, rfl⟩, ⟨by decide, by decide, by decide, by decide, by decide⟩, by decide⟩

theorem test_meets_commute : Ready sPart ∧ QueueOk sPart := ⟨test_ready_part, test_queue_ok.2.2⟩

theorem test_meets_only_reset : (∃ t, exec (.write frameB.bytes) sRej = .next t) ∧
    Instr.write frameB.bytes ≠ .reset ∧ sRej.wr.reject = true := ⟨⟨_, rfl⟩, by decide, rfl⟩

theorem test_meets_persist : (∃ t, exec (.frameCode1 0#3 false) sTail = .next t) ∧
    Instr.frameCode1 0#3 false ≠ .reset ∧ (∀ cap, Instr.frameCode1 0#3 false ≠ .read cap) ∧
    (∀ src, Instr.frameCode1 0#3 false ≠ .write src) := ⟨⟨_, rfl⟩, by decide, by simp, by simp⟩

theorem test_meets_ascending : Memory.wf [(5, 1#8)] ∧ 0 ≤ 0 ∧ 0 ≤ 5 := by decide

end Sys2Proof.Tests
end

section
/-! SUPPORT. The two directions share no state (R43): READ commutes with replacing WR and WRITE with replacing RD, part by
part, in every state and however the operation ends. -/

namespace Sys2Proof.Machine

/-! ## Replacing the other direction's content -/

/-- `s` with another content of the write side. -/
def State.withWr (w : WrState) (s : State) : State := { s with wr := w }

/-- `s` with another content of the read side. -/
def State.withRd (r : RdState) (s : State) : State := { s with rd := r }

@[simp] theorem State.withWr_cfg (w : WrState) (s : State) : (s.withWr w).cfg = s.cfg := rfl
@[simp] theorem State.withWr_rd (w : WrState) (s : State) : (s.withWr w).rd = s.rd := rfl
@[simp] theorem State.withWr_rxq (w : WrState) (s : State) : (s.withWr w).rxq = s.rxq := rfl
@[simp] theorem State.withWr_arrivals (w : WrState) (s : State) : (s.withWr w).arrivals = s.arrivals := rfl
@[simp] theorem State.withWr_sessionOpen (w : WrState) (s : State) : (s.withWr w).sessionOpen = s.sessionOpen := rfl

@[simp] theorem State.withRd_cfg (r : RdState) (s : State) : (s.withRd r).cfg = s.cfg := rfl
@[simp] theorem State.withRd_wr (r : RdState) (s : State) : (s.withRd r).wr = s.wr := rfl
@[simp] theorem State.withRd_sessionOpen (r : RdState) (s : State) : (s.withRd r).sessionOpen = s.sessionOpen := rfl

/-! ## Operations that may end early -/

/-- The end of an operation that did not complete, the state it raised its fault in changed by `f`. -/
def Abort.mapState (f : State → State) : Abort → Abort
  | .raised r s => .raised r (f s)
  | .overrun => .overrun

/-- The end of an operation: its answer changed by `g`, the state of a raised fault by `f`. -/
def mapEnd {α β : Type} (f : State → State) (g : α → β) : Except Abort α → Except Abort β
  | .ok a => .ok (g a)
  | .error e => .error (e.mapState f)

@[simp] theorem mapEnd_ok {α β : Type} (f : State → State) (g : α → β) (a : α) : mapEnd f g (.ok a) = .ok (g a) := rfl

@[simp] theorem mapEnd_error {α β : Type} (f : State → State) (g : α → β) (e : Abort) :
    mapEnd f g (.error e) = .error (e.mapState f) := rfl

@[simp] theorem Abort.mapState_raised (f : State → State) (r : FaultRecord) (s : State) :
    (Abort.raised r s).mapState f = .raised r (f s) := rfl

/-- A buffer read fails in one way only, which holds no state (R12). -/
theorem bufRead_error {cfg : Config} {buf : Memory} {i n : Nat} {e : Abort} (h : bufRead cfg buf i n = .error e)
    (f : State → State) : e.mapState f = e := by
  unfold bufRead at h
  split at h <;> cases h
  rfl

/-- A buffer write fails in one way only, which holds no state (R12). -/
theorem bufWrite_error {cfg : Config} {buf : Memory} {i : Nat} {bs : List Byte} {e : Abort}
    (h : bufWrite cfg buf i bs = .error e) (f : State → State) : e.mapState f = e := by
  unfold bufWrite at h
  split at h <;> cases h
  rfl

/-- A change of the state that `raise` does not see passes through the end of an operation. -/
theorem conclude_mapEnd {f : State → State} (hf : ∀ r s, raise r (f s) = f (raise r s)) (x : Except Abort State) :
    conclude (mapEnd f f x) = mapNext f (conclude x) := by
  match x with
  | .ok _ => rfl
  | .error .overrun => rfl
  | .error (.raised r s) => exact congrArg Host.Outcome.next (hf r s)

/-! ## READ and the write side -/

/-- Pop() does not look at WR. -/
theorem pop_withWr (w : WrState) (s : State) : pop (s.withWr w) = Prod.map id (State.withWr w) (pop s) := by
  rw [pop_eq, pop_eq]
  simp only [State.withWr_rxq, State.withWr_arrivals]
  cases s.rxq ++ s.arrivals.headD [] <;> rfl

/-- Step 1 of READ: the drain does not touch WR (R102, R103). -/
theorem readDrain_withWr (cap : Nat) (w : WrState) (s : State) :
    readDrain cap (s.withWr w) = mapEnd (State.withWr w) (Prod.map id (State.withWr w)) (readDrain cap s) := by
  by_cases h : s.rd.filled ≤ s.cfg.ovfCap
  · rw [readDrain_ok h, readDrain_ok (s := s.withWr w) h]; rfl
  · have ho : s.cfg.ovfCap < s.rd.filled := Nat.lt_of_not_le h
    rw [readDrain_overrun ho, readDrain_overrun (s := s.withWr w) ho]; rfl

/-- The split of a frame does not touch WR (R107). -/
theorem readSplit_withWr (cap pos : Nat) (bs : List Byte) (w : WrState) (s : State) :
    readSplit cap pos bs (s.withWr w) =
      mapEnd (State.withWr w) (Prod.map id (State.withWr w)) (readSplit cap pos bs s) := by
  unfold readSplit
  simp only [State.withWr_cfg, State.withWr_rd]
  cases h : bufWrite s.cfg s.rd.buf 0 (bs.drop (cap - pos)) with
  | ok buf => rfl
  | error e => exact congrArg Except.error (bufWrite_error h _).symm

/-- The pops do not touch WR, however they end (R105 to R108, R204). -/
theorem readPops_withWr (cap fuel pos : Nat) (w : WrState) (s : State) :
    readPops cap fuel pos (s.withWr w) =
      mapEnd (State.withWr w) (Prod.map id (State.withWr w)) (readPops cap fuel pos s) := by
  induction fuel generalizing pos s with
  | zero => rfl
  | succ fuel ih =>
    unfold readPops
    rw [pop_withWr]
    by_cases hfull : cap ≤ pos
    · simp [hfull]
    · rw [if_neg hfull, if_neg hfull]
      match pop s with
      | (none, t) => rfl
      | (some f, t) =>
        have hemit : emit (.pop f.bytes) (t.withWr w) = (emit (.pop f.bytes) t).withWr w := rfl
        have hdeliver (u : State) : deliver pos f.bytes (u.withWr w) = (deliver pos f.bytes u).withWr w := rfl
        simp only [Prod.map, id, hemit, hdeliver, State.withWr_cfg, ih, readSplit_withWr]
        split_ifs <;> rfl

/-- Steps 1 to 3 of READ do not touch WR (R43, R101). -/
theorem readBody_withWr (cap : Nat) (w : WrState) (s : State) :
    readBody cap (s.withWr w) = mapEnd (State.withWr w) (Prod.map id (State.withWr w)) (readBody cap s) := by
  unfold readBody
  rw [readDrain_withWr]
  match readDrain cap s with
  | .error e => rfl
  | .ok (pos, t) =>
    simp only [mapEnd_ok, Prod.map, id, State.withWr_rd, readPops_withWr]
    split <;> rfl

/-- READ neither reads nor writes WR (R43). -/
theorem execRead_withWr (cap : Nat) (w : WrState) (s : State) :
    execRead cap (s.withWr w) = mapNext (State.withWr w) (execRead cap s) := by
  unfold execRead
  rw [State.withWr_sessionOpen, readBody_withWr]
  by_cases ho : s.sessionOpen = false
  · rw [if_pos ho, if_pos ho]; rfl
  · rw [if_neg ho, if_neg ho, ← conclude_mapEnd (fun _ _ => rfl)]
    match readBody cap s with
    | .ok (count, t) => rfl
    | .error e => rfl

/-! ## WRITE and the read side -/

/-- FreeSlots does not look at RD (R218). -/
theorem freeSlots_withRd (k : TransportKind) (r : RdState) (s : State) :
    freeSlots k (s.withRd r) = Prod.map id (State.withRd r) (freeSlots k s) := by
  cases k with
  | usb => cases h : s.usbDraws <;> simp [freeSlots, State.withRd, h]
  | spi => cases h : s.spiDraws <;> simp [freeSlots, State.withRd, h]

/-- One check of TAN does not touch RD (R171, R172). -/
theorem tanCheck_withRd (k : TransportKind) (r : RdState) (s : State) :
    tanCheck k (s.withRd r) = Prod.map id (State.withRd r) (tanCheck k s) := by
  unfold tanCheck
  rw [freeSlots_withRd]
  rfl

/-- TAN does not touch RD (R174). -/
theorem tan_withRd (r : RdState) (s : State) : tan (s.withRd r) = Prod.map id (State.withRd r) (tan s) := by
  simp only [tan, tanCheck_withRd, Prod.map, id]

/-- Step 3 of WRITE and its response do not touch RD (R93, R140). -/
theorem writeFinish_withRd (incomplete : Bool) (r : RdState) (s : State) :
    writeFinish incomplete (s.withRd r) = (writeFinish incomplete s).withRd r := by
  unfold writeFinish
  rw [State.withRd_cfg, tan_withRd]
  cases (!incomplete || s.cfg.notifyOnIncomplete) <;> rfl

/-- Keeping a trailing partial frame does not touch RD (R139). -/
theorem keepPartial_withRd (n : Nat) (src : List Byte) (r : RdState) (s : State) :
    keepPartial n src (s.withRd r) = mapEnd (State.withRd r) (State.withRd r) (keepPartial n src s) := by
  unfold keepPartial
  simp only [State.withRd_cfg, State.withRd_wr]
  cases h : bufWrite s.cfg s.wr.buf 0 src with
  | ok buf => rfl
  | error e => exact congrArg Except.error (bufWrite_error h _).symm

/-- Step 2 of WRITE: the cut into frames does not touch RD (R136 to R139). -/
theorem writeCut_withRd (fuel : Nat) (src : List Byte) (r : RdState) (s : State) :
    writeCut fuel src (s.withRd r) = mapEnd (State.withRd r) (State.withRd r) (writeCut fuel src s) := by
  induction fuel generalizing src s with
  | zero => rfl
  | succ fuel ih =>
    cases src with
    | nil => rfl
    | cons b0 rest =>
      unfold writeCut
      rw [State.withRd_cfg]
      cases fld s.cfg b0 with
      | none => rfl
      | some n =>
        have hsubmit (bs : List Byte) : submit b0 bs (s.withRd r) = (submit b0 bs s).withRd r := rfl
        simp only [hsubmit, ih, keepPartial_withRd]
        split <;> rfl

/-- Completing the pending frame does not touch RD (R133, R134). -/
theorem writeComplete_withRd (src : List Byte) (r : RdState) (s : State) :
    writeComplete src (s.withRd r) = mapEnd (State.withRd r) (State.withRd r) (writeComplete src s) := by
  unfold writeComplete
  simp only [State.withRd_cfg, State.withRd_wr]
  cases hw : bufWrite s.cfg s.wr.buf s.wr.filled (src.take s.wr.needed) with
  | error e => exact congrArg Except.error (bufWrite_error hw _).symm
  | ok buf =>
    cases hr : bufRead s.cfg buf 0 (s.wr.filled + s.wr.needed) with
    | error e => simp [hr, bufRead_error hr]
    | ok bytes => simp only [hr]; rfl

/-- Extending the pending frame does not touch RD (R135). -/
theorem writeExtend_withRd (src : List Byte) (r : RdState) (s : State) :
    writeExtend src (s.withRd r) = mapEnd (State.withRd r) (State.withRd r) (writeExtend src s) := by
  unfold writeExtend
  simp only [State.withRd_cfg, State.withRd_wr]
  cases h : bufWrite s.cfg s.wr.buf s.wr.filled src with
  | ok buf => rfl
  | error e => exact congrArg Except.error (bufWrite_error h _).symm

/-- Steps 1 and 2 of WRITE do not touch RD (R131, R132). -/
theorem writeBody_withRd (src : List Byte) (r : RdState) (s : State) :
    writeBody src (s.withRd r) = mapEnd (State.withRd r) (State.withRd r) (writeBody src s) := by
  unfold writeBody
  rw [State.withRd_wr, writeCut_withRd, writeExtend_withRd, writeComplete_withRd]
  split_ifs
  · rfl
  · rfl
  · rfl
  · match writeComplete src s with
    | .error e => rfl
    | .ok t => exact writeCut_withRd _ _ r t

/-- WRITE neither reads nor writes RD (R43). -/
theorem execWrite_withRd (src : List Byte) (r : RdState) (s : State) :
    execWrite src (s.withRd r) = mapNext (State.withRd r) (execWrite src s) := by
  unfold execWrite
  rw [State.withRd_sessionOpen, writeBody_withRd]
  by_cases ho : s.sessionOpen = false
  · rw [if_pos ho, if_pos ho]; rfl
  · rw [if_neg ho, if_neg ho, ← conclude_mapEnd (fun _ _ => rfl)]
    match writeBody src s with
    | .ok t => exact congrArg (fun t => conclude (.ok t)) (writeFinish_withRd _ r t)
    | .error e => rfl

/-! ## The obligation -/

/-- Settles O50: each operation commutes with replacing the other direction's content, part by part. -/
theorem directionsShareNoState : Obligations.DirectionsShareNoState :=
  fun s cap src rd wr => ⟨execRead_withWr cap wr s, execWrite_withRd src rd s⟩

end Sys2Proof.Machine
end

section
/-! SUPPORT. READ from a ready state: what its answer holds field by field, where the pops end in a queue to which
nothing is added, and the READ obligations that follow (R102 to R104, R106 to R109). -/

namespace Sys2Proof.Machine

/-! ## Reading a part of the bytes written -/

/-- Read after write, a range inside the bytes written. -/
theorem Memory.readRange_write_within {m : Memory} {a i n : Nat} {bs : List Byte} (h : i + n ≤ bs.length) :
    (m.write a bs).readRange (a + i) n = (bs.drop i).take n := by
  have hdrop := Memory.drop_readRange (m.write a bs) a (k := i) (n := bs.length) (by omega)
  rw [Memory.readRange_write_self] at hdrop
  rw [hdrop, Memory.take_readRange _ _ (by omega)]

/-! ## The fields of a READ's answer -/

section
variable {cap m : Nat} {s t : State} {popped : List Frame}

theorem ReadDone.dst (h : ReadDone cap s popped m t) :
    t.dst = s.dst.write 0 ((s.rd.held ++ wireBytes popped).take cap) := by
  obtain ⟨q, hst⟩ := h.state; rw [hst]

theorem ReadDone.history (h : ReadDone cap s popped m t) : t.history = s.history ++ popEvents popped := by
  obtain ⟨q, hst⟩ := h.state; rw [hst]

theorem ReadDone.filled (h : ReadDone cap s popped m t) :
    t.rd.filled = s.rd.filled + (wireBytes popped).length - cap := by
  rw [← RdState.held_length, h.held, List.length_drop, List.length_append, RdState.held_length]

/-- COUNT is the length of the bytes delivered, RD_PENDING tells whether bytes stay pending (R94, R109). -/
theorem ReadDone.response (h : ReadDone cap s popped m t) :
    t.response = some (readResponse s.cfg.lenFieldBits ((s.rd.held ++ wireBytes popped).take cap).length
      (decide (0 < t.rd.filled))) := by
  obtain ⟨q, hst⟩ := h.state
  rw [List.length_take, hst]

/-- A range of the destination that the READ wrote holds that range of the stream of the tail and the frames popped. -/
theorem ReadDone.dst_readRange (h : ReadDone cap s popped m t) {i n : Nat} (hcap : i + n ≤ cap)
    (hlen : i + n ≤ s.rd.filled + (wireBytes popped).length) :
    t.dst.readRange i n = ((s.rd.held ++ wireBytes popped).drop i).take n := by
  have hwritten : i + n ≤ ((s.rd.held ++ wireBytes popped).take cap).length := by simp; omega
  have hread := Memory.readRange_write_within (m := s.dst) (a := 0) hwritten
  rw [Nat.zero_add] at hread
  rw [h.dst, hread, List.drop_take, List.take_take, Nat.min_eq_left (by omega)]

end

section
variable {cap m : Nat} {s t : State} {good : List Frame} {bad : Frame}

theorem ReadRaised.dst (h : ReadRaised cap s good bad m t) : t.dst = s.dst.write 0 (s.rd.held ++ wireBytes good) := by
  obtain ⟨q, hst⟩ := h.state; rw [hst]; rfl

theorem ReadRaised.history (h : ReadRaised cap s good bad m t) :
    t.history = s.history ++ popEvents (good ++ [bad]) := by
  obtain ⟨q, hst⟩ := h.state; rw [hst]; rfl

/-- A READ that raises RxCorrupt leaves nothing pending. -/
theorem ReadRaised.held (h : ReadRaised cap s good bad m t) : t.rd.held = [] := by
  obtain ⟨q, hst⟩ := h.state; rw [hst]; rfl

end

/-! ## READ from a ready state -/

/-- R32's bound lies below OVF_CAP (R9). -/
theorem Ready.filled_le_ovfCap {s : State} (hr : Ready s) : s.rd.filled ≤ s.cfg.ovfCap := by
  have hbound := (hr.inv.rd hr.session).bound
  have hcap := ovfCap_ge hr.cfg
  simp only [maxFrame, minOvfCap] at hbound hcap
  omega

/-- From a ready state a READ answers or raises RxCorrupt. -/
theorem Ready.read_cases {s : State} (hr : Ready s) (cap : Nat) :
    (∃ popped m t, exec (.read cap) s = .next t ∧ ReadDone cap s popped m t) ∨
    (∃ good bad m t, exec (.read cap) s = .next t ∧ ReadRaised cap s good bad m t) :=
  execRead_cases hr.cfg hr.inv.mem.dstWf hr.session hr.filled_le_ovfCap

/-- Over a well-formed queue, arrivals included, a READ answers (R216). -/
theorem Ready.read_answers {s : State} (hr : Ready s) (hq : QueueOk s) (cap : Nat) :
    ∃ popped m t, exec (.read cap) s = .next t ∧ ReadDone cap s popped m t := by
  rcases hr.read_cases cap with hdone | ⟨good, bad, m, t, -, hraised⟩
  · exact hdone
  · have hbad : bad ∈ s.rxq ++ (s.arrivals.take m).flatten := by rw [← hraised.fifo]; simp
    refine absurd ?_ hraised.bad_not_ok
    rcases List.mem_append.1 hbad with hmem | hmem
    · exact hq.1 bad hmem
    · obtain ⟨fs, hfs, hmem⟩ := List.mem_flatten.1 hmem
      exact hq.2 fs (List.mem_of_mem_take hfs) bad hmem

/-- A READ with less room than the pending tail is step 1 and the response alone: it pops nothing (R104). -/
theorem Ready.read_pending {s : State} (hr : Ready s) {cap : Nat} (hlt : cap < s.rd.filled) :
    exec (.read cap) s = .next { s with
      dst := s.dst.write 0 (s.rd.held.take cap)
      rd := ⟨s.rd.buf.write 0 (s.rd.held.drop cap), s.rd.filled - cap⟩
      response := some (readResponse s.cfg.lenFieldBits cap true) } := by
  have hbody : readBody cap s = .ok (cap, { s with
      dst := s.dst.write 0 (s.rd.held.take cap)
      rd := ⟨s.rd.buf.write 0 (s.rd.held.drop cap), s.rd.filled - cap⟩ }) := by
    unfold readBody
    rw [readDrain_ok hr.filled_le_ovfCap]
    simp only
    rw [if_neg (by omega), Nat.min_eq_left (by omega)]
  change execRead cap s = _
  unfold execRead
  rw [if_neg (by simp [hr.session]), hbody]
  simp [readRespond, respond, rdPending, conclude, hlt]

/-! ## Where the pops end -/

/-- The pops of a READ with `n` bytes already delivered end after `fs`, before `q`: there was room before the last frame
of `fs` was popped (R105), and if room is left then the queue is empty (R108). -/
structure PopsEndAt (cap n : Nat) (fs q : List Frame) : Prop where
  room : fs ≠ [] → n + (wireBytes fs.dropLast).length < cap
  short : n + (wireBytes fs).length < cap → q = []

theorem ReadDone.popsEndAt {cap m : Nat} {s t : State} {popped : List Frame} (h : ReadDone cap s popped m t) :
    PopsEndAt cap s.rd.filled popped t.rxq := by
  constructor
  · simpa using h.room
  · simpa using h.short

/-- Of two ends of the pops in one queue, the later adds no frame: popping it needs the room that ends the earlier only
at the empty queue. -/
theorem PopsEndAt.eq_nil_of_append {cap n : Nat} {fs more q : List Frame} (hlate : PopsEndAt cap n (fs ++ more) q)
    (hearly : PopsEndAt cap n fs (more ++ q)) : more = [] := by
  by_contra hmore
  have hroom := hlate.room (by simp [hmore])
  rw [List.dropLast_append_of_ne_nil hmore, wireBytes_append, List.length_append] at hroom
  have hempty := hearly.short (by omega)
  exact hmore (List.append_eq_nil_iff.1 hempty).1

/-- The pops end at one place in a queue. -/
theorem PopsEndAt.unique {cap n : Nat} {fs q fs' q' : List Frame} (h : PopsEndAt cap n fs q)
    (h' : PopsEndAt cap n fs' q') (hqueue : fs ++ q = fs' ++ q') : fs = fs' ∧ q = q' := by
  rcases List.append_eq_append_iff.1 hqueue with ⟨more, rfl, rfl⟩ | ⟨more, rfl, rfl⟩
  · obtain rfl := h'.eq_nil_of_append h
    simp
  · obtain rfl := h.eq_nil_of_append h'
    simp

/-- A frame reached with room left is one of those popped. -/
theorem PopsEndAt.mem_of_room {cap n : Nat} {fs q good rest : List Frame} {f : Frame} (h : PopsEndAt cap n fs q)
    (hqueue : fs ++ q = good ++ f :: rest) (hroom : n + (wireBytes good).length < cap) : f ∈ fs := by
  rcases List.append_eq_append_iff.1 hqueue with ⟨more, rfl, rfl⟩ | ⟨more, rfl, hmore⟩
  · rw [wireBytes_append, List.length_append] at hroom
    simpa using h.short (by omega)
  · cases more with
    | nil =>
      rw [List.append_nil] at h
      have hempty := h.short hroom
      simp [hempty] at hmore
    | cons g gs =>
      obtain ⟨rfl, -⟩ := List.cons.inj hmore
      simp

/-- With no arrivals, a READ pops exactly the frames before the place where the pops end, if they are well formed. -/
theorem Ready.read_of_popsEndAt {s : State} (hr : Ready s) {cap : Nat} {fs q : List Frame} (harr : s.arrivals = [])
    (hqueue : s.rxq = fs ++ q) (hok : ∀ f ∈ fs, f.Ok s.cfg) (hend : PopsEndAt cap s.rd.filled fs q) :
    ∃ m t, exec (.read cap) s = .next t ∧ ReadDone cap s fs m t ∧ t.rxq = q := by
  have hfifo : ∀ m, s.rxq ++ (s.arrivals.take m).flatten = fs ++ q := fun m => by simp [harr, hqueue]
  rcases hr.read_cases cap with ⟨popped, m, t, hexec, hdone⟩ | ⟨good, bad, m, t, -, hraised⟩
  · obtain ⟨rfl, hrest⟩ := hdone.popsEndAt.unique hend (hdone.fifo.trans (hfifo m))
    exact ⟨m, t, hexec, hdone, hrest⟩
  · have hmem := hend.mem_of_room ((hfifo m).symm.trans hraised.fifo.symm) (by simpa using hraised.room)
    exact absurd (hok bad hmem) hraised.bad_not_ok

/-- Where the whole queue fits with room to spare the pops end at the empty queue (R108). -/
theorem popsEndAt_empty_queue {cap n : Nat} {fs : List Frame} (h : n + (wireBytes fs).length < cap) :
    PopsEndAt cap n fs [] := by
  refine ⟨fun hne => ?_, fun _ => rfl⟩
  rw [← List.dropLast_append_getLast hne, wireBytes_append, List.length_append] at h
  omega

/-- The first frame that does not fit is the last one popped (R107). -/
theorem popsEndAt_split {cap n : Nat} {fs q : List Frame} {f : Frame} (hfit : n + (wireBytes fs).length < cap)
    (hsplit : cap < n + (wireBytes fs).length + f.bytes.length) : PopsEndAt cap n (fs ++ [f]) q := by
  refine ⟨fun _ => by rwa [List.dropLast_concat], fun h => ?_⟩
  simp only [wireBytes_append, wireBytes_cons, wireBytes_nil, List.append_nil, List.length_append] at h
  omega

/-! ## The obligations -/

/-- Settles O17: with C < RD.filled the READ is its step 1; otherwise the tail heads the stream delivered, and what
stays pending is the stream's part behind C, or nothing where the READ raised. -/
theorem readDrainsThePendingTailFirst : Obligations.ReadDrainsThePendingTailFirst := by
  intro s cap hr _
  constructor
  · intro hlt
    refine ⟨_, hr.read_pending hlt, ?_, rfl, held_after_drain s.rd cap, rfl, rfl, rfl, rfl⟩
    have hlen : (s.rd.held.take cap).length = cap := by simp; omega
    have hread := Memory.readRange_write_self s.dst 0 (s.rd.held.take cap)
    rwa [hlen] at hread
  · intro hle
    rcases hr.read_cases cap with ⟨popped, m, t, hexec, hdone⟩ | ⟨good, bad, m, t, hexec, hraised⟩
    · refine ⟨t, popped, hexec, ?_, hdone.history, ?_⟩
      · rw [hdone.dst_readRange (by omega) (by omega), List.drop_zero, List.take_left' (by simp)]
      · rw [hdone.held, List.drop_append, List.drop_eq_nil_of_le (by simpa using hle), List.nil_append]
        exact List.drop_suffix _ _
    · refine ⟨t, good ++ [bad], hexec, ?_, hraised.history, by simp [hraised.held]⟩
      have hread := Memory.readRange_write_within (m := s.dst) (a := 0) (i := 0) (n := s.rd.filled)
        (bs := s.rd.held ++ wireBytes good) (by simp)
      rwa [List.drop_zero, List.take_left' (by simp), ← hraised.dst] at hread

/-- Settles O19: the pops end behind the frame that does not fit, and the stream is cut at C inside that frame. -/
theorem readDeliversFittingFramesAndSplitsTheNext : Obligations.ReadDeliversFittingFramesAndSplitsTheNext := by
  intro s cap fs q f hr harr hqueue hoks hok hfit hsplit
  obtain ⟨m, t, hexec, hdone, hrest⟩ := hr.read_of_popsEndAt (fs := fs ++ [f]) harr (by simpa using hqueue)
    (by simpa [or_imp, forall_and] using ⟨hoks, hok⟩) (popsEndAt_split (q := q) hfit hsplit)
  have hbytes : f.bytes.length ≤ maxFrame := (fld_range hr.cfg hok).2
  have hstream : s.rd.held ++ wireBytes (fs ++ [f]) = (s.rd.held ++ wireBytes fs) ++ f.bytes := by simp
  have hwhole : (s.rd.held ++ wireBytes fs).length = s.rd.filled + (wireBytes fs).length := by simp
  have hlen : (wireBytes (fs ++ [f])).length = (wireBytes fs).length + f.bytes.length := by simp
  generalize hn : s.rd.filled + (wireBytes fs).length = n at hwhole hfit hsplit ⊢
  have hfilled : t.rd.filled = f.bytes.length - (cap - n) := by rw [hdone.filled]; omega
  refine ⟨t, hexec, ?_, ?_, ?_, hfilled, by omega, by omega, hrest, hdone.history, ?_⟩
  · rw [hdone.dst_readRange (by omega) (by omega), hstream, List.drop_zero, List.take_left' hwhole]
  · rw [hdone.dst_readRange (by omega) (by omega), hstream, List.drop_left' hwhole]
  · rw [hdone.held, hstream, List.drop_append, List.drop_eq_nil_of_le (by omega), hwhole, List.nil_append]
  · rw [hdone.response, hstream, List.length_take, List.length_append, hwhole, Nat.min_eq_left (by omega),
      decide_eq_true (by omega)]

/-- Settles O20: the pops end at the empty queue, and the whole stream is delivered. -/
theorem readStopsAtTheEmptyQueue : Obligations.ReadStopsAtTheEmptyQueue := by
  intro s cap hr harr hok hfit
  obtain ⟨m, t, hexec, hdone, hrest⟩ := hr.read_of_popsEndAt harr (List.append_nil _).symm hok
    (popsEndAt_empty_queue hfit)
  have hlen : (s.rd.held ++ wireBytes s.rxq).length = s.rd.filled + (wireBytes s.rxq).length := by simp
  have hfilled : t.rd.filled = 0 := by rw [hdone.filled]; omega
  refine ⟨t, hexec, ?_, hfilled, hrest, hdone.history, ?_⟩
  · rw [hdone.dst_readRange (by omega) (by omega), List.drop_zero, List.take_of_length_le hlen.le]
  · rw [hdone.response, hfilled, List.take_of_length_le (by omega), hlen]
    rfl

/-- Settles O21: the bytes delivered are the stream's first C bytes, those left pending are its rest. -/
theorem readCountIsTheBytesWritten : Obligations.ReadCountIsTheBytesWritten := by
  intro s cap hr hq
  obtain ⟨popped, m, t, hexec, hdone⟩ := hr.read_answers hq cap
  refine ⟨t, popped, (s.rd.held ++ wireBytes popped).take cap, hexec, hdone.history, hdone.stream, hdone.dst,
    hdone.response, List.length_take_le _ _, fun hpending => ?_⟩
  have hfilled := hdone.filled
  rw [List.length_take, List.length_append, RdState.held_length]
  omega

end Sys2Proof.Machine
end

section
/-! SUPPORT. WRITE from a ready state: where steps 1 and 2 go on behind a frame, which frames a WRITE submits, and the
WRITE obligations that follow (R133, R134, R138, R139, R145). -/

namespace Sys2Proof.Machine

/-! ## Going on behind a frame -/

/-- A WRITE that is not rejecting and has nothing pending is its step 2 (R131). -/
theorem writeBody_idle {src : List Byte} {s : State} (hrej : s.wr.reject = false) (hn : s.wr.needed = 0) :
    writeBody src s = writeCut src.length src s := by
  unfold writeBody
  rw [if_neg (by simp [hrej]), if_pos hn]

/-- Step 2 submits a whole frame and goes on with the bytes behind it (R138). -/
theorem writeCut_frame {fuel : Nat} {frame rest : List Byte} {s : State} (hf : IsFrame s.cfg frame)
    (hfuel : (frame ++ rest).length ≤ fuel) : writeCut fuel (frame ++ rest) s =
      writeCut rest.length rest { s with history := s.history ++ [submitEvent frame] } := by
  cases frame with
  | nil => exact hf.elim
  | cons b0 tl =>
    have hfld : fld s.cfg b0 = some (tl.length + 1) := hf
    simp only [List.cons_append, List.length_cons, List.length_append] at hfuel
    obtain ⟨k, rfl⟩ : ∃ k, fuel = k + 1 := ⟨fuel - 1, by omega⟩
    rw [List.cons_append, writeCut]
    simp only [hfld]
    rw [if_pos (by simp), List.drop_succ_cons, List.drop_left, List.take_succ_cons, List.take_left]
    exact writeCut_fuel (f := k) (src := rest) (by omega) le_rfl

/-- Two WRITEs in an open session end the same where their steps 1 and 2 do and neither leaves the path incomplete. -/
theorem execWrite_congr {src src' : List Byte} {s s' : State} (hopen : s'.sessionOpen = s.sessionOpen)
    (hbody : writeBody src s = writeBody src' s') (hinc : writeIncomplete src s.wr = writeIncomplete src' s'.wr)
    (ho : s.sessionOpen = true) : execWrite src s = execWrite src' s' := by
  unfold execWrite
  rw [if_neg (by simp [ho]), if_neg (by simp [hopen, ho]), hbody, hinc]

/-! ## The pending frame -/

section
variable {s : State} {src : List Byte}

/-- The counters of a pending frame: FLD of its first byte is what is there and what is missing (R33). -/
theorem WrInv.pending (hi : WrInv s) (hn : 0 < s.wr.needed) :
    1 ≤ s.wr.filled ∧ fld s.cfg (s.wr.buf.read 0) = some (s.wr.filled + s.wr.needed) := by
  rcases hi.counters with ⟨-, hzero⟩ | ⟨hfilled, -, hfld⟩
  · omega
  · exact ⟨hfilled, hfld⟩

/-- The bytes held and the bytes that were missing are one frame (R133). -/
theorem WrInv.isFrame_completed (hi : WrInv s) (hn : 0 < s.wr.needed) (hle : s.wr.needed ≤ src.length) :
    IsFrame s.cfg (s.wr.held ++ src.take s.wr.needed) := by
  obtain ⟨hfilled, hfld⟩ := hi.pending hn
  obtain ⟨tl, hheld, hlen⟩ := WrState.held_cons hfilled
  rw [hheld, List.cons_append, IsFrame, hfld, List.length_append, List.length_take, Nat.min_eq_left hle]
  congr 1
  omega

/-- An input that completes the pending frame: step 2 goes on behind the frame, from an idle write side (R133). -/
theorem writeBody_completes (hc : ConfigOk s.cfg) (hi : WrInv s) (hrej : s.wr.reject = false)
    (hn : 0 < s.wr.needed) (hle : s.wr.needed ≤ src.length) :
    writeBody src s = writeBody (src.drop s.wr.needed) { s with
      history := s.history ++ [submitEvent (s.wr.held ++ src.take s.wr.needed)]
      wr := ⟨s.wr.buf.write s.wr.filled (src.take s.wr.needed), 0, 0, false⟩ } := by
  obtain ⟨hfilled, hfld⟩ := hi.pending hn
  have hfit : s.wr.filled + s.wr.needed ≤ s.cfg.ovfCap :=
    (fld_range hc hfld).2.trans ((by decide : maxFrame ≤ minOvfCap).trans (ovfCap_ge hc))
  refine Eq.trans ?_ (writeBody_idle rfl rfl).symm
  unfold writeBody
  rw [if_neg (by simp [hrej]), if_neg (by omega), if_neg (by omega), writeComplete_ok hfilled hle hfit]
  simp only [hrej]
  exact writeCut_fuel (by simp) le_rfl

end

/-! ## WRITE from a ready state -/

/-- From a ready state that does not reject, a WRITE cuts the bytes held and its input (R61). -/
theorem Ready.write_cut {s : State} (hr : Ready s) (hrej : s.wr.reject = false) (src : List Byte) :
    ∃ frames rest wr ends t, IsCut s.cfg (s.wr.held ++ src) frames rest ∧ WroteRest s.cfg rest wr ends ∧
      exec (.write src) s = .next t ∧ WriteDone src s (frames.map submitEvent ++ ends) wr t := by
  obtain ⟨frames, rest, wr, ends, t, hcut, hrest, -, -, hexec, hdone⟩ := execWrite_cut (src := src) hr.cfg hr.session
    (hr.inv.wr hr.session) hrej hr.inv.mem.wrWf hr.inv.mem.wrIn
  exact ⟨frames, rest, wr, ends, t, hcut, hrest, hexec, hdone⟩

/-- From a ready state that does not reject, a WRITE completes. -/
theorem Ready.write_answers {s : State} (hr : Ready s) (hrej : s.wr.reject = false) (src : List Byte) :
    ∃ t, exec (.write src) s = .next t := by
  obtain ⟨-, -, -, -, t, -, -, hexec, -⟩ := hr.write_cut hrej src
  exact ⟨t, hexec⟩

/-! ## The frames submitted -/

theorem mem_submittedFrames {bs : List Byte} {bus : BusId} {h : List Event} :
    (bs, bus) ∈ submittedFrames h ↔ .submit bs bus ∈ h := by
  unfold submittedFrames
  rw [List.mem_filterMap]
  constructor
  · rintro ⟨e, he, heq⟩
    cases e with
    | submit bs' bus' => cases heq; exact he
    | resume k => cases heq
    | pop bs' => cases heq
    | corruptStream b0 => cases heq
  · exact fun he => ⟨_, he, rfl⟩

@[simp] theorem submittedFrames_resumeIf (k : TransportKind) (fire : Bool) :
    submittedFrames (resumeIf k fire) = [] := by
  cases fire <;> rfl

/-- The last event of steps 1 and 2, if there is one, is no Submit (R137). -/
theorem WroteRest.submittedFrames_ends {cfg : Config} {rest : List Byte} {wr : WrState} {ends : List Event}
    (h : WroteRest cfg rest wr ends) : submittedFrames ends = [] := by
  cases rest with
  | nil => obtain ⟨-, -, -, rfl⟩ := h.idle rfl; rfl
  | cons b0 tl =>
    cases hfld : fld cfg b0 with
    | none => obtain ⟨-, -, -, rfl⟩ := h.corrupt b0 tl rfl hfld; rfl
    | some n => obtain ⟨-, -, -, -, -, rfl⟩ := h.held b0 tl n rfl hfld; rfl

section
variable {src : List Byte} {s t : State} {new : List Event} {wr : WrState}

theorem WriteDone.wr_eq (h : WriteDone src s new wr t) : t.wr = wr := by
  obtain ⟨u, p, d, hst⟩ := h.state; rw [hst]

/-- A WRITE submits the frames that steps 1 and 2 submitted: step 3 submits none (R140). -/
theorem WriteDone.submittedFrames_eq (h : WriteDone src s new wr t) :
    submittedFrames t.history = submittedFrames s.history ++ submittedFrames new := by
  obtain ⟨u, p, d, hst⟩ := h.state
  rw [hst]
  simp

end

/-- The frames that a WRITE from a ready state submits are frames of one cut of the bytes held and the input; a
rejecting WRITE submits none. -/
theorem Ready.mem_submitted {s t : State} {src bs : List Byte} {bus : BusId} {new : List Event} (hr : Ready s)
    (hexec : exec (.write src) s = .next t) (hnew : t.history = s.history ++ new) (hmem : .submit bs bus ∈ new) :
    ∃ frames rest, IsCut s.cfg (s.wr.held ++ src) frames rest ∧ .submit bs bus ∈ frames.map submitEvent := by
  have hmem : (bs, bus) ∈ submittedFrames new := mem_submittedFrames.2 hmem
  cases hrej : s.wr.reject with
  | true =>
    obtain ⟨t', hexec', hdone⟩ := execWrite_rejecting (src := src) hr.session hrej
    obtain rfl : t = t' := Host.Outcome.next.inj (hexec.symm.trans hexec')
    have hsub := hdone.submittedFrames_eq
    rw [hnew, submittedFrames_append, List.append_cancel_left_eq] at hsub
    rw [hsub] at hmem
    cases hmem
  | false =>
    obtain ⟨frames, rest, wr, ends, t', hcut, hrest, hexec', hdone⟩ := hr.write_cut hrej src
    obtain rfl : t = t' := Host.Outcome.next.inj (hexec.symm.trans hexec')
    have hsub := hdone.submittedFrames_eq
    rw [hnew, submittedFrames_append, submittedFrames_append, hrest.submittedFrames_ends, List.append_nil,
      List.append_cancel_left_eq] at hsub
    exact ⟨frames, rest, hcut, mem_submittedFrames.1 (hsub ▸ hmem)⟩

/-- A frame of a cut stands in one piece in the stream. -/
theorem IsCut.frame_infix {cfg : Config} {stream rest bs : List Byte} {frames : List (List Byte)}
    (h : IsCut cfg stream frames rest) (hmem : bs ∈ frames) : bs <:+: stream :=
  h.whole ▸ (List.infix_of_mem_flatten hmem).trans (List.prefix_append _ rest).isInfix

/-! ## The obligations -/

/-- Settles O31: steps 1 and 2 on the input are steps 1 and 2 on the rest of it, from the state the completion leaves. -/
theorem writeCompletesThePendingFrame : Obligations.WriteCompletesThePendingFrame := by
  intro s src hr hrej hn hle
  have hi := hr.inv.wr hr.session
  exact ⟨execWrite_congr rfl (writeBody_completes hr.cfg hi hrej hn hle) (by simp [writeIncomplete, hle]) hr.session,
    hr.write_answers hrej src, hi.isFrame_completed hn hle⟩

/-- Settles O33: step 2 goes on behind the frame, and with nothing pending it is all there is of steps 1 and 2. -/
theorem writeSubmitsAWholeFrame : Obligations.WriteSubmitsAWholeFrame := by
  intro s frame rest hr hrej hn hf
  refine ⟨execWrite_congr rfl ?_ (by simp [writeIncomplete, hn]) hr.session, hr.write_answers hrej _⟩
  rw [writeBody_idle hrej hn, writeCut_frame hf le_rfl]
  exact (writeBody_idle (s := { s with history := s.history ++ [submitEvent frame] }) hrej hn).symm

/-- Settles O34: the cut of the input has no frame, so the whole input is its rest. -/
theorem writeKeepsATrailingPartialFrame : Obligations.WriteKeepsATrailingPartialFrame := by
  intro s b0 tl n hr hrej hn hfld hshort
  obtain ⟨frames, rest, wr, ends, t, hcut, hrest, hexec, hdone⟩ := hr.write_cut hrej (b0 :: tl)
  have hheld : s.wr.held = [] := by
    rcases (hr.inv.wr hr.session).counters with ⟨hzero, -⟩ | ⟨-, hpos, -⟩
    · exact List.eq_nil_of_length_eq_zero (by simpa using hzero)
    · omega
  have hnoFrame : NoFrameYet s.cfg (b0 :: tl) := by
    intro k hk
    rw [hfld] at hk
    cases hk
    exact hshort
  rw [hheld, List.nil_append] at hcut
  obtain ⟨rfl, rfl⟩ := hcut.unique (IsCut.rest hnoFrame)
  obtain ⟨hbytes, hfilled, htotal, -, hreject, rfl⟩ := hrest.held b0 tl n rfl hfld
  rw [List.length_cons] at hfilled
  have hsub := hdone.submittedFrames_eq
  obtain rfl := hdone.wr_eq
  exact ⟨t, hexec, hfilled ▸ hbytes, hfilled, by omega, hreject, hsub.trans (List.append_nil _)⟩

/-- Settles O39: every Submit event is the event of a frame of the cut. -/
theorem submittedFramesAreWholeWithTheirBus : Obligations.SubmittedFramesAreWholeWithTheirBus := by
  intro s t src bs bus new hr hexec hnew hmem
  obtain ⟨frames, rest, hcut, hmem⟩ := hr.mem_submitted hexec hnew hmem
  obtain ⟨frame, hframe, hevent⟩ := List.mem_map.1 hmem
  have hwhole := hcut.frame frame hframe
  have hinfix := hcut.frame_infix hframe
  cases frame with
  | nil => exact hwhole.elim
  | cons b0 tl =>
    cases hevent
    exact ⟨hwhole, hinfix, b0, tl, rfl, rfl⟩

end Sys2Proof.Machine
end

section
/-! SUPPORT. Decoding and encoding undo each other (R71, R83 to R85), and what FLD can answer (R78). -/

namespace Sys2Proof

open Machine

/-! ## A frame's first byte -/

/-- The row of a frame's first byte is the instruction that is encoded as that byte. -/
theorem decodeFrameHead_of_encode {i : Instr} {b0 : Byte} (h : encode i = .frameHead b0) : decodeFrameHead b0 = i := by
  cases i <;> cases h <;> simp [decodeFrameHead]

/-- Every byte is the encoding of its row (R96). -/
theorem encode_decodeFrameHead : ∀ b0 : Byte, encode (decodeFrameHead b0) = .frameHead b0 := by
  decide

/-- A row of the first byte has no LEN field to fit. -/
theorem wf_of_encode_frameHead {i : Instr} {b0 : Byte} (lfb : Nat) (h : encode i = .frameHead b0) :
    i.wf lfb = true := by
  cases i <;> cases h <;> rfl

/-! ## Command words -/

/-- `i` is the operation that a word with these fields and these data bytes asks for (R84, R85). -/
def OperationOf (op len : Nat) (data : List Byte) (i : Instr) : Prop :=
  (op = 1 ∧ data = [] ∧ i = .read len) ∨ (op = 2 ∧ data.length = len ∧ i = .write data) ∨
    (op = 3 ∧ len = 0 ∧ data = [] ∧ i = .reset)

/-- Exactly the words of R83 with RSV = 0 and an operation's fields decode. -/
theorem decodeCommand_eq_ok_iff {lfb word : Nat} {data : List Byte} {i : Instr} :
    decodeCommand lfb word data = .ok i ↔ word < 2 ^ (8 + lfb) ∧ bits word 7 2 = 0 ∧
      OperationOf (bits word 1 0) (bits word (7 + lfb) 8) data i := by
  have hop : bits word 1 0 < 4 := bits_lt word 1 0
  unfold decodeCommand OperationOf
  generalize bits word 1 0 = op at hop
  generalize bits word 7 2 = rsv
  generalize bits word (7 + lfb) 8 = len
  split_ifs <;> grind

/-- The illegal words of R87 are rejected by name, whatever data bytes stand beside them. -/
theorem decodeCommand_illegal {lfb word : Nat} (data : List Byte) (hlt : word < 2 ^ (8 + lfb))
    (h : IllegalCommandWord lfb word) : ∃ why, decodeCommand lfb word data = .error why ∧
      (why = .illegalOp ∨ why = .reservedBits ∨ why = .resetWithLen) := by
  unfold IllegalCommandWord at h
  unfold decodeCommand
  generalize bits word 1 0 = op at h
  generalize bits word 7 2 = rsv at h
  generalize bits word (7 + lfb) 8 = len at h
  split_ifs <;> grind

/-- Every legal word is an operation once its data bytes are there (R85, R87). -/
theorem decodeCommand_legal {lfb word : Nat} (hlt : word < 2 ^ (8 + lfb)) (h : ¬ IllegalCommandWord lfb word) :
    ∃ data i, decodeCommand lfb word data = .ok i := by
  have hop : bits word 1 0 < 4 := bits_lt word 1 0
  simp only [IllegalCommandWord, not_or, not_and, not_not] at h
  obtain ⟨hzero, hrsv, hlen⟩ := h
  have hcases : bits word 1 0 = 1 ∨ bits word 1 0 = 2 ∨ bits word 1 0 = 3 := by omega
  rcases hcases with hop | hop | hop
  · exact ⟨[], _, decodeCommand_eq_ok_iff.2 ⟨hlt, hrsv, .inl ⟨hop, rfl, rfl⟩⟩⟩
  · exact ⟨List.replicate _ 0#8, _, decodeCommand_eq_ok_iff.2
      ⟨hlt, hrsv, .inr (.inl ⟨hop, List.length_replicate, rfl⟩)⟩⟩
  · exact ⟨[], _, decodeCommand_eq_ok_iff.2 ⟨hlt, hrsv, .inr (.inr ⟨hop, hlen hop, rfl, rfl⟩)⟩⟩

/-- A word put together from an operation and a length that fits decodes to that operation. -/
theorem decodeCommand_commandWord {lfb op len : Nat} {data : List Byte} {i : Instr} (hlen : len < 2 ^ lfb)
    (h : OperationOf op len data i) : decodeCommand lfb (commandWord op len) data = .ok i := by
  have hop : op < 4 := by unfold OperationOf at h; omega
  rw [decodeCommand_eq_ok_iff, bits_op op len hop, bits_rsv op len hop, bits_len hop hlen]
  exact ⟨commandWord_lt hop hlen, rfl, h⟩

/-- A decoded word is its operation and length put together again. -/
theorem commandWord_of_decodeCommand {lfb word : Nat} {data : List Byte} {i : Instr}
    (h : decodeCommand lfb word data = .ok i) :
    word = commandWord (bits word 1 0) (bits word (7 + lfb) 8) := by
  obtain ⟨hlt, hrsv, -⟩ := decodeCommand_eq_ok_iff.1 h
  have hfields := word_fields hlt
  rwa [hrsv, Nat.mul_zero, Nat.add_zero] at hfields

/-! ## The obligations -/

/-- Settles O1: an operation's word decodes by its fields, a row's byte by its code. -/
theorem decodeOfEncodeIsIdentity : Obligations.DecodeOfEncodeIsIdentity := by
  intro lfb i hwf
  cases hwire : encode i with
  | frameHead b0 => exact congrArg Except.ok (decodeFrameHead_of_encode hwire)
  | command word data =>
    cases i with
    | read cap =>
      cases hwire
      exact decodeCommand_commandWord (of_decide_eq_true hwf) (.inl ⟨rfl, rfl, rfl⟩)
    | write src =>
      cases hwire
      exact decodeCommand_commandWord (of_decide_eq_true hwf) (.inr (.inl ⟨rfl, rfl, rfl⟩))
    | reset =>
      cases hwire
      exact decodeCommand_commandWord (Nat.two_pow_pos lfb) (.inr (.inr ⟨rfl, rfl, rfl, rfl⟩))
    | _ => cases hwire

/-- Settles O2: the fields that the decoder read are all of the word, and its LEN field fits. -/
theorem encodeOfDecodeIsIdentity : Obligations.EncodeOfDecodeIsIdentity := by
  intro lfb w i h
  cases w with
  | frameHead b0 =>
    cases h
    exact ⟨encode_decodeFrameHead b0, wf_of_encode_frameHead lfb (encode_decodeFrameHead b0)⟩
  | command word data =>
    change decodeCommand lfb word data = .ok i at h
    have hword := commandWord_of_decodeCommand h
    have hlen := bits_lt word (7 + lfb) 8
    rw [show 7 + lfb + 1 - 8 = lfb by omega] at hlen
    obtain ⟨-, -, hoperation⟩ := decodeCommand_eq_ok_iff.1 h
    rcases hoperation with ⟨hop, rfl, rfl⟩ | ⟨hop, hdata, rfl⟩ | ⟨hop, hzero, rfl, rfl⟩
    · rw [hop] at hword
      exact ⟨congrArg (Wire.command · []) hword.symm, decide_eq_true hlen⟩
    · rw [hop, ← hdata] at hword
      rw [← hdata] at hlen
      exact ⟨congrArg (Wire.command · data) hword.symm, decide_eq_true hlen⟩
    · rw [hop, hzero] at hword
      exact ⟨congrArg (Wire.command · []) hword.symm, rfl⟩

/-- Settles O3, by running the decoder on each word. -/
theorem specWordsDecode : Obligations.SpecWordsDecode := by
  unfold Obligations.SpecWordsDecode
  decide

/-- Settles O5: the table's lengths are bounded by R9, and FLD looks up the code alone. -/
theorem fldAnswersWithinFrameBounds : Obligations.FldAnswersWithinFrameBounds :=
  fun cfg b0 hc => ⟨fun _ => fld_range hc, fun b1 hcode => by rw [fld_eq, fld_eq, hcode]⟩

/-- Settles O6, by looking up the five codes. -/
theorem defaultTableLengths : Obligations.DefaultTableLengths := by
  unfold Obligations.DefaultTableLengths
  decide

/-- FLD of a byte put together from its fields looks up the code (R78). -/
theorem fld_frameByte0 (cfg : Config) (code : Code) (bus : BusId) (fd : Bool) :
    fld cfg (frameByte0 code bus fd) = (lenOf cfg code).map (headSize + ·) := by
  rw [fld_eq, codeOf_frameByte0]

end Sys2Proof
end

section
/-! SUPPORT. The field view of a built frame: the packed field and the checksum (R72 to R75). -/

namespace Sys2Proof.Machine

/-! ## The checksum -/

theorem xorBytes_foldl (a : Byte) (bs : List Byte) : bs.foldl (· ^^^ ·) a = a ^^^ xorBytes bs := by
  induction bs generalizing a with
  | nil => exact (BitVec.xor_zero).symm
  | cons b bs ih =>
    rw [xorBytes, List.foldl_cons, List.foldl_cons, ih, ih (0#8 ^^^ b), BitVec.zero_xor, BitVec.xor_assoc]

@[simp] theorem xorBytes_nil : xorBytes [] = 0#8 := rfl

@[simp] theorem xorBytes_cons (b : Byte) (bs : List Byte) : xorBytes (b :: bs) = b ^^^ xorBytes bs := by
  rw [xorBytes, List.foldl_cons, xorBytes_foldl, BitVec.zero_xor]

@[simp] theorem xorBytes_append (bs cs : List Byte) : xorBytes (bs ++ cs) = xorBytes bs ^^^ xorBytes cs := by
  rw [xorBytes, List.foldl_append, xorBytes_foldl]; rfl

/-- The XOR of a whole frame, its checksum included, is zero: every byte stands in it twice (R74). -/
theorem xorBytes_checked (head payload : List Byte) : xorBytes (head ++ checksum head payload :: payload) = 0#8 := by
  rw [xorBytes_append, xorBytes_cons, checksum, BitVec.xor_assoc, BitVec.xor_self, BitVec.xor_zero, BitVec.xor_self]

/-! ## The packed field -/

/-- Bytes 1 to 4 put together again are the field (R54, R73). -/
theorem packedField_extract (v : BitVec 32) : packedField (v.extractLsb' 0 8) (v.extractLsb' 8 8)
    (v.extractLsb' 16 8) (v.extractLsb' 24 8) = v := by
  unfold packedField
  ext i hi
  simp only [BitVec.getElem_append, BitVec.getElem_extractLsb']
  split_ifs <;> simp <;> grind

/-- The bits of a field with three flags below it. -/
theorem getLsbD_append_flags {n : Nat} (v : BitVec n) (b2 b1 b0 : Bool) (i : Nat) :
    (v ++ BitVec.ofBool b2 ++ BitVec.ofBool b1 ++ BitVec.ofBool b0).getLsbD i =
      if i = 0 then b0 else if i = 1 then b1 else if i = 2 then b2 else v.getLsbD (i - 3) := by
  match i with
  | 0 | 1 | 2 | i + 3 => simp [BitVec.getLsbD_append, BitVec.getElem_append]

section
variable (f : FrameFields)

/-- The bits of F: REJECTED, RETURNED, EXTENDED, then ADDRESS (R73). -/
theorem FrameFields.packed_getLsbD (i : Nat) : f.packed.getLsbD i =
    if i = 0 then f.rejected else if i = 1 then f.returned else if i = 2 then f.extended
    else f.address.getLsbD (i - 3) :=
  getLsbD_append_flags f.address f.extended f.returned f.rejected i

theorem FrameFields.packed_address : f.packed.extractLsb' 3 29 = f.address := by
  ext i hi
  rw [BitVec.getElem_extractLsb', f.packed_getLsbD, if_neg (by omega), if_neg (by omega), if_neg (by omega),
    Nat.add_sub_cancel_left, BitVec.getLsbD_eq_getElem hi]

end

/-! ## The obligation -/

/-- Settles O8: byte 0 and the packed field are concatenations, byte 5 is the checksum over the others. -/
theorem builtFramesHoldTheirFields : Obligations.BuiltFramesHoldTheirFields := by
  intro f
  refine ⟨frameByte0 f.code f.bus f.fd, _, _, _, _, checksum f.head f.payload, f.packed, rfl, codeOf_frameByte0 _ _ _,
    busOf_frameByte0 _ _ _, fdOf_frameByte0 _ _ _, rfl, rfl, rfl, rfl, packedField_extract f.packed, f.packed_address,
    f.packed_getLsbD 2, f.packed_getLsbD 1, f.packed_getLsbD 0, ?_, xorBytes_checked f.head f.payload⟩
  simp [checksum, FrameFields.head, fieldBytes, BitVec.xor_assoc]

end Sys2Proof.Machine
end

section
/-! SUPPORT. What an instruction can do at all, what a step does with each move of the surroundings (R201, R206, R208,
R214), and the obligations over every instruction and every step. -/

namespace Sys2Proof.Machine

/-! ## Instructions -/

/-- A row of a frame's first byte shows that byte to FLD and does nothing else (R78, R96). -/
theorem exec_of_encode_frameHead {i : Instr} {b0 : Byte} (h : encode i = .frameHead b0) (s : State) :
    exec i s = .next (showFrameHead b0 s) := by
  cases i <;> cases h <;> rfl

/-- Every way an instruction can answer: as one of the three operations, or as a row of a frame's first byte. -/
theorem exec_cases {i : Instr} {s t : State} (h : exec i s = .next t) :
    (∃ cap, i = .read cap ∧ execRead cap s = .next t) ∨ (∃ src, i = .write src ∧ execWrite src s = .next t) ∨
    (i = .reset ∧ execReset s = .next t) ∨ (∃ b0, encode i = .frameHead b0 ∧ t = showFrameHead b0 s) := by
  cases hwire : encode i with
  | frameHead b0 =>
    rw [exec_of_encode_frameHead hwire] at h
    exact .inr (.inr (.inr ⟨b0, rfl, (Host.Outcome.next.inj h).symm⟩))
  | command word data =>
    cases i with
    | read cap => exact .inl ⟨cap, rfl, h⟩
    | write src => exact .inr (.inl ⟨src, rfl, h⟩)
    | reset => exact .inr (.inr (.inl ⟨rfl, h⟩))
    | _ => cases hwire

/-- What every instruction keeps, in every state: the records, the history, an open session, the parameters. -/
theorem exec_kept {i : Instr} {s t : State} (h : exec i s = .next t) : (∀ r ∈ s.faults, r ∈ t.faults) ∧
    s.history <+: t.history ∧ (s.sessionOpen = true → t.sessionOpen = true) ∧ t.cfg = s.cfg := by
  rcases exec_cases h with ⟨cap, -, hread⟩ | ⟨src, -, hwrite⟩ | ⟨-, hreset⟩ | ⟨b0, -, rfl⟩
  · obtain ⟨hhistory, hfaults, hopen, hcfg, -⟩ := read_kept hread
    exact ⟨hfaults, hhistory, hopen.trans, hcfg⟩
  · obtain ⟨hhistory, hfaults, hopen, hcfg, -⟩ := write_kept hwrite
    exact ⟨hfaults, hhistory, hopen.trans, hcfg⟩
  · cases hreset
    exact ⟨fun _ => id, List.prefix_rfl, fun _ => rfl, rfl⟩
  · exact ⟨fun _ => id, List.prefix_rfl, id, rfl⟩

/-- An operation's body ends in a next state or in the overrun, never in a refusal. -/
theorem conclude_ne_refused (x : Except Abort State) (r : Refusal) : conclude x ≠ .refused r := by
  match x with
  | .ok _ => simp [conclude]
  | .error .overrun => simp [conclude]
  | .error (.raised _ _) => simp [conclude]

/-- Every instruction has a meaning: none is refused. -/
theorem exec_ne_refused (i : Instr) (s : State) (r : Refusal) : exec i s ≠ .refused r := by
  cases hwire : encode i with
  | frameHead b0 => simp [exec_of_encode_frameHead hwire]
  | command word data =>
    cases i with
    | read cap =>
      change execRead cap s ≠ _
      unfold execRead
      split
      · simp
      · exact conclude_ne_refused _ r
    | write src =>
      change execWrite src s ≠ _
      unfold execWrite
      split
      · simp
      · exact conclude_ne_refused _ r
    | reset => exact nofun
    | _ => cases hwire

/-! ## The step -/

section
variable {s : State} {rest : List Input}

/-- A step of a legal configuration without a record is the next move of the surroundings. -/
theorem step_eq_issueInput (hc : ConfigOk s.cfg) (hf : s.faults = []) : step s = issueInput s := by
  unfold step issue
  rw [hc]
  exact if_pos hf

theorem step_wire {w : Wire} (hc : ConfigOk s.cfg) (hf : s.faults = []) (ha : s.agenda = .wire w :: rest) :
    step s = issueWire w rest s := by
  rw [step_eq_issueInput hc hf, issueInput, ha]

theorem step_canRx {f : Frame} (hc : ConfigOk s.cfg) (hf : s.faults = []) (ha : s.agenda = .canRx f :: rest) :
    step s = .next (arrive [f] { s with agenda := rest }) := by
  rw [step_eq_issueInput hc hf, issueInput, ha]

theorem step_slots {u p : Nat} (hc : ConfigOk s.cfg) (hf : s.faults = []) (ha : s.agenda = .slots u p :: rest) :
    step s = .next (setSlots u p { s with agenda := rest }) := by
  rw [step_eq_issueInput hc hf, issueInput, ha]

theorem issueWire_decoded {w : Wire} {i : Instr} (h : decode s.cfg.lenFieldBits w = .ok i) :
    issueWire w rest s = exec i { s with agenda := rest } := by
  unfold issueWire
  rw [h]

theorem issueWire_dataPending {w : Wire} (h : decode s.cfg.lenFieldBits w = .error .dataPending) :
    issueWire w rest s = .next s := by
  unfold issueWire
  rw [h]

/-- An illegal command word raises and runs nothing (R203). -/
theorem issueWire_illegal {word : Nat} {data : List Byte} {why : Reject}
    (h : decode s.cfg.lenFieldBits (.command word data) = .error why)
    (hwhy : why = .illegalOp ∨ why = .reservedBits ∨ why = .resetWithLen) :
    issueWire (.command word data) rest s = .next (raise (.illegalCommand word) { s with agenda := rest }) := by
  unfold issueWire
  rw [h]
  rcases hwhy with rfl | rfl | rfl <;> rfl

/-- No wire is refused for the configuration. -/
theorem issueWire_ne_configInvalid (w : Wire) (r : FaultRecord) :
    issueWire w rest s ≠ .refused (.configInvalid r) := by
  unfold issueWire
  split
  · exact exec_ne_refused _ _ _
  all_goals simp

end

/-- A step refuses a configuration exactly when the configuration breaks R9 (R208). -/
theorem step_configInvalid_iff (s : State) :
    (∃ r, step s = .refused (.configInvalid r)) ↔ ¬ ConfigOk s.cfg := by
  constructor
  · rintro ⟨r, h⟩ hc
    unfold step issue at h
    rw [hc] at h
    simp only at h
    split at h
    · unfold issueInput at h
      split at h
      · cases h
      · exact issueWire_ne_configInvalid _ _ h
      · cases h
      · cases h
    · cases h
  · intro hc
    cases hfault : configFault s.cfg with
    | none => exact absurd hfault hc
    | some r => exact ⟨r, by rw [step, issue, hfault]⟩

/-- A first record stands alone in the set. -/
theorem raise_of_no_faults {r : FaultRecord} {s : State} (hf : s.faults = []) :
    raise r s = { s with faults := [r], response := none } := by
  simp [raise, hf]

/-! ## The obligations -/

/-- Settles O4: the decoder names an illegal word's fault, and a legal word is an operation. -/
theorem illegalCommandWordsRaise : Obligations.IllegalCommandWordsRaise := by
  intro s word data rest hc hf ha hlt
  refine ⟨fun hillegal => ?_, decodeCommand_legal hlt⟩
  obtain ⟨why, hdecode, hwhy⟩ := decodeCommand_illegal data hlt hillegal
  rw [step_wire hc hf ha, issueWire_illegal hdecode hwhy]
  exact congrArg Host.Outcome.next (raise_of_no_faults hf)

/-- Settles O7: every row is its byte at FLD, which looks up the row's code. -/
theorem frameCodesAnswerTheirLength : Obligations.FrameCodesAnswerTheirLength := by
  intro s bus fd
  have row (code : Code) {i : Instr} (h : encode i = .frameHead (frameByte0 code bus fd)) :
      exec i s = .next { s with fldAnswer := some ((lenOf s.cfg code).map (headSize + ·)) } := by
    rw [exec_of_encode_frameHead h, showFrameHead, fld_frameByte0]
  exact ⟨row 0 rfl, row 1 rfl, row 2 rfl, row 3 rfl, row 4 rfl, row 5 rfl, row 6 rfl, row 7 rfl, row 8 rfl, row 9 rfl,
    row 10 rfl, row 11 rfl, row 12 rfl, row 13 rfl, row 14 rfl, row 15 rfl⟩

/-- Settles O9: the next move is the wire, which decodes. -/
theorem stepRunsDecodedInstruction : Obligations.StepRunsDecodedInstruction :=
  fun _ _ _ _ hc hf ha hdecode => (step_wire hc hf ha).trans (issueWire_decoded hdecode)

/-- Settles O10: the decoder answers that data bytes are missing. -/
theorem writeWaitsForItsData : Obligations.WriteWaitsForItsData := by
  intro s word data rest hc hf ha hlt hop hrsv hshort
  have hdecode : decode s.cfg.lenFieldBits (.command word data) = .error .dataPending := by
    simp [decode, decodeCommand, hop, hrsv, hshort, hlt.not_ge]
  rw [step_wire hc hf ha, issueWire_dataPending hdecode]

/-- Settles O11: both moves are taken as they stand, and the answers left are the next ones asked for. -/
theorem surroundingsMoveBetweenOperations : Obligations.SurroundingsMoveBetweenOperations :=
  fun _ _ hc hf => ⟨fun _ ha => step_canRx hc hf ha,
    fun _ _ ha => ⟨_, step_slots hc hf ha, rfl, usbAnswer_drawn rfl, spiAnswer_drawn rfl⟩⟩

/-- Settles O12: the record is looked at before the next move. -/
theorem faultedStateTakesNoStep : Obligations.FaultedStateTakesNoStep := by
  intro s hc hf
  unfold step issue
  rw [hc]
  exact if_neg hf

/-- Settles O13: a step refuses exactly what the configuration check does not let through. -/
theorem badConfigurationsAreRefused : Obligations.BadConfigurationsAreRefused :=
  fun s => (step_configInvalid_iff s).trans (not_congr (configOk_iff s.cfg))

/-- Settles O46: RESET is one update of the state. -/
theorem resetWritesItsFiveElements : Obligations.ResetWritesItsFiveElements :=
  fun _ => rfl

/-- Settles O47: what RESET writes it has written already. -/
theorem resetIsIdempotent : Obligations.ResetIsIdempotent := by
  rintro s t ⟨⟩
  rfl

/-- Settles O16: every instruction keeps the bookkeeping, and the other moves of a step add a record or nothing. -/
theorem bookkeepingOnlyGrows : Obligations.BookkeepingOnlyGrows := by
  constructor
  · intro i s t h
    obtain ⟨hfaults, hhistory, -⟩ := exec_kept h
    exact ⟨hfaults, hhistory⟩
  · intro s t h
    obtain ⟨-, -, hmove⟩ := step_cases h
    rcases hmove with ⟨w, i, rest, -, -, hi⟩ | ⟨rfl, -⟩ | ⟨_, _, _, _, -, -, -, rfl⟩ | ⟨_, _, -, rfl⟩ |
      ⟨_, _, _, -, rfl⟩
    · obtain ⟨-, hkept⟩ := exec_kept hi
      exact hkept
    all_goals exact ⟨List.prefix_rfl, id, rfl⟩

/-- Settles O52: READ and WRITE keep the session and rejection, a row of a frame's first byte keeps every register. -/
theorem onlyResetOpensASessionOrEndsRejection : Obligations.OnlyResetOpensASessionOrEndsRejection := by
  intro i s t h hi
  rcases exec_cases h with ⟨cap, -, hread⟩ | ⟨src, -, hwrite⟩ | ⟨hreset, -⟩ | ⟨b0, -, rfl⟩
  · obtain ⟨-, -, hopen, -, hwr⟩ := read_kept hread
    exact ⟨hopen, fun hrej => by rwa [hwr]⟩
  · obtain ⟨-, -, hopen, -, -, hrej⟩ := write_kept hwrite
    exact ⟨hopen, hrej⟩
  · exact absurd hreset hi
  · exact ⟨rfl, id⟩

/-- Settles O53: READ keeps WR, WRITE keeps RD, a row of a frame's first byte keeps both. -/
theorem partialFramesPersist : Obligations.PartialFramesPersist := by
  intro i s t h hi
  rcases exec_cases h with ⟨cap, rfl, hread⟩ | ⟨src, rfl, hwrite⟩ | ⟨hreset, -⟩ | ⟨b0, -, rfl⟩
  · obtain ⟨-, -, -, -, hwr⟩ := read_kept hread
    exact ⟨fun hne => absurd rfl (hne cap), fun _ => hwr⟩
  · obtain ⟨-, -, -, -, hrd, -⟩ := write_kept hwrite
    exact ⟨fun _ => hrd, fun hne => absurd rfl (hne src)⟩
  · exact absurd hreset hi
  · exact ⟨fun _ => rfl, fun _ => rfl⟩

end Sys2Proof.Machine
end

section
/-! SUPPORT. Every step keeps the invariant (R32 to R34, R50): READ and WRITE from a ready state, RESET from every
state, and the moves that touch neither direction. -/

namespace Sys2Proof.Machine

/-! ## Parts of the invariant that a move does not touch -/

section
variable {s t : State}

theorem RdInv.congr (h : RdInv s) (hrd : t.rd = s.rd) (hpopped : poppedFrames t.history = poppedFrames s.history) :
    RdInv t := by
  obtain ⟨hbound, htail⟩ := h
  constructor
  · rwa [hrd]
  · rwa [hrd, lastPopped, hpopped]

theorem WrInv.congr (h : WrInv s) (hcfg : t.cfg = s.cfg) (hwr : t.wr = s.wr) : WrInv t := by
  obtain ⟨hcounters, hreject⟩ := h
  constructor
  · rwa [hcfg, hwr]
  · rwa [hwr]

theorem MemInv.congr (h : MemInv s) (hcfg : t.cfg = s.cfg) (hrd : t.rd = s.rd) (hwr : t.wr = s.wr)
    (hdst : t.dst = s.dst) : MemInv t := by
  obtain ⟨hrdWf, hrdIn, hwrWf, hwrIn, hdstWf⟩ := h
  constructor
  · rwa [hrd]
  · rwa [hrd, hcfg]
  · rwa [hwr]
  · rwa [hwr, hcfg]
  · rwa [hdst]

/-- A move that touches neither direction, the destination, the session nor the parameters, and pops nothing. -/
theorem Inv.congr (h : Inv s) (hcfg : t.cfg = s.cfg) (hrd : t.rd = s.rd) (hwr : t.wr = s.wr) (hdst : t.dst = s.dst)
    (hopen : t.sessionOpen = s.sessionOpen) (hpopped : poppedFrames t.history = poppedFrames s.history) : Inv t :=
  ⟨h.mem.congr hcfg hrd hwr hdst, fun ho => (h.rd (hopen ▸ ho)).congr hrd hpopped,
    fun ho => (h.wr (hopen ▸ ho)).congr hcfg hwr⟩

/-- With both directions idle the session invariants say nothing more than the memories' form. -/
theorem Inv.of_idle (h : MemInv s) (hrd : s.rd.filled = 0) (hfilled : s.wr.filled = 0) (hneeded : s.wr.needed = 0) :
    Inv s :=
  ⟨h, fun _ => ⟨by simp [hrd], by simp [hrd]⟩, fun _ => ⟨.inl ⟨hfilled, hneeded⟩, fun _ => ⟨hfilled, hneeded⟩⟩⟩

/-- RESET leaves both directions idle (R186). -/
theorem MemInv.inv_of_execReset (h : MemInv s) (hexec : execReset s = .next t) : Inv t := by
  cases hexec
  exact Inv.of_idle ⟨h.rdWf, h.rdIn, h.wrWf, h.wrIn, h.dstWf⟩ rfl rfl rfl

end

/-! ## READ -/

/-- What a READ leaves alone, however it ends: the write side, its collaborators' answers, the session, the parameters,
FLD's record and the agenda. -/
abbrev ReadKeeps (s t : State) : Prop :=
  t.cfg = s.cfg ∧ t.wr = s.wr ∧ t.sessionOpen = s.sessionOpen ∧ t.usbDraws = s.usbDraws ∧ t.spiDraws = s.spiDraws ∧
    t.draws = s.draws ∧ t.fldAnswer = s.fldAnswer ∧ t.agenda = s.agenda

section
variable {cap m : Nat} {s t : State} {popped : List Frame}

theorem ReadDone.keeps (h : ReadDone cap s popped m t) : ReadKeeps s t := by
  obtain ⟨q, hst⟩ := h.state; rw [hst]; simp [ReadKeeps]

theorem ReadDone.buf (h : ReadDone cap s popped m t) :
    t.rd.buf = s.rd.buf.write 0 ((s.rd.held ++ wireBytes popped).drop cap) := by
  obtain ⟨q, hst⟩ := h.state; rw [hst]

/-- Where frames were popped, what is left pending is the end of the last of them, of which at least one byte had room
(R105, R107). -/
theorem ReadDone.held_concat {fs : List Frame} {f : Frame} (h : ReadDone cap s (fs ++ [f]) m t) :
    t.rd.held = f.bytes.drop (cap - (s.rd.filled + (wireBytes fs).length)) ∧
    t.rd.filled = f.bytes.length - (cap - (s.rd.filled + (wireBytes fs).length)) ∧
    s.rd.filled + (wireBytes fs).length < cap := by
  have hroom := h.room (by simp)
  rw [List.dropLast_concat, List.length_append, RdState.held_length] at hroom
  have hheld := h.held
  rw [wireBytes_append, ← List.append_assoc, List.drop_append, List.drop_eq_nil_of_le (by simp; omega)] at hheld
  simp only [wireBytes_cons, wireBytes_nil, List.append_nil, List.nil_append, List.length_append,
    RdState.held_length] at hheld
  exact ⟨hheld, by rw [← RdState.held_length, hheld, List.length_drop], hroom⟩

/-- A READ keeps R32: its pending bytes are the rest of the old tail, or of the last frame it popped. -/
theorem ReadDone.rdInv (hc : ConfigOk s.cfg) (hi : RdInv s) (h : ReadDone cap s popped m t) : RdInv t := by
  rcases List.eq_nil_or_concat popped with rfl | ⟨fs, f, rfl⟩
  · have hfilled := h.filled
    have hheld := h.held
    simp only [wireBytes_nil, List.append_nil, List.length_nil, Nat.add_zero] at hfilled hheld
    refine ⟨by have := hi.bound; omega, fun hpos => ?_⟩
    obtain ⟨bs, r, hlast, hr, hlt, htail⟩ := hi.tail (by omega)
    have hlen : s.rd.filled = bs.length - r := by rw [← RdState.held_length, htail, List.length_drop]
    refine ⟨bs, r + cap, ?_, by omega, by omega, ?_⟩
    · rwa [h.history, popEvents_nil, List.append_nil]
    · rw [hheld, htail, List.drop_drop]
  · rw [List.concat_eq_append] at h
    obtain ⟨hheld, hfilled, hroom⟩ := h.held_concat
    have hlen := (fld_range hc (h.popped_ok f (by simp))).2
    refine ⟨by simp only [maxFrame] at hlen ⊢; omega, fun hpos => ⟨f.bytes, _, ?_, ?_, ?_, hheld⟩⟩
    · rw [h.history, lastPopped, poppedFrames_append, poppedFrames_popEvents]
      simp
    · omega
    · omega

/-- A READ that answers keeps the memories' form: the bytes left pending fit RD.buf. -/
theorem ReadDone.memInv (hc : ConfigOk s.cfg) (hi : MemInv s) (hrd : RdInv t) (h : ReadDone cap s popped m t) :
    MemInv t := by
  obtain ⟨hcfg, hwr, -⟩ := h.keeps
  have hfit : 0 + ((s.rd.held ++ wireBytes popped).drop cap).length ≤ s.cfg.ovfCap := by
    rw [← h.held, RdState.held_length, Nat.zero_add]
    exact hrd.bound.trans ((by decide : maxFrame - 1 ≤ minOvfCap).trans (ovfCap_ge hc))
  constructor
  · rw [h.buf]; exact Memory.wf_write hi.rdWf
  · rw [h.buf, hcfg]; exact Memory.write_in hi.rdIn hfit
  · rw [hwr]; exact hi.wrWf
  · rw [hwr, hcfg]; exact hi.wrIn
  · rw [h.dst]; exact Memory.wf_write hi.dstWf

end

section
variable {cap m : Nat} {s t : State} {good : List Frame} {bad : Frame}

theorem ReadRaised.keeps (h : ReadRaised cap s good bad m t) : ReadKeeps s t := by
  obtain ⟨q, hst⟩ := h.state; rw [hst]; simp [ReadKeeps]

theorem ReadRaised.rd (h : ReadRaised cap s good bad m t) : t.rd = ⟨s.rd.buf, 0⟩ := by
  obtain ⟨q, hst⟩ := h.state; rw [hst]; rfl

/-- A READ that raises keeps the memories' form: it writes the destination alone. -/
theorem ReadRaised.memInv (hi : MemInv s) (h : ReadRaised cap s good bad m t) : MemInv t := by
  obtain ⟨hcfg, hwr, -⟩ := h.keeps
  constructor
  · rw [h.rd]; exact hi.rdWf
  · rw [h.rd, hcfg]; exact hi.rdIn
  · rw [hwr]; exact hi.wrWf
  · rw [hwr, hcfg]; exact hi.wrIn
  · rw [h.dst]; exact Memory.wf_write hi.dstWf

end

/-- A READ from a ready state has answered or raised RxCorrupt. -/
theorem Ready.read_outcome {cap : Nat} {s t : State} (hr : Ready s) (h : exec (.read cap) s = .next t) :
    (∃ popped m, ReadDone cap s popped m t) ∨ (∃ good bad m, ReadRaised cap s good bad m t) := by
  rcases hr.read_cases cap with ⟨popped, m, t', hexec, hdone⟩ | ⟨good, bad, m, t', hexec, hraised⟩
  · obtain rfl : t = t' := Host.Outcome.next.inj (h.symm.trans hexec)
    exact .inl ⟨popped, m, hdone⟩
  · obtain rfl : t = t' := Host.Outcome.next.inj (h.symm.trans hexec)
    exact .inr ⟨good, bad, m, hraised⟩

/-- A READ from a ready state keeps the invariant. -/
theorem Ready.read_inv {cap : Nat} {s t : State} (hr : Ready s) (h : exec (.read cap) s = .next t) : Inv t := by
  rcases hr.read_outcome h with ⟨popped, m, hdone⟩ | ⟨good, bad, m, hraised⟩
  · obtain ⟨hcfg, hwr, -⟩ := hdone.keeps
    have hrd := hdone.rdInv hr.cfg (hr.inv.rd hr.session)
    exact ⟨hdone.memInv hr.cfg hr.inv.mem hrd, fun _ => hrd, fun _ => (hr.inv.wr hr.session).congr hcfg hwr⟩
  · obtain ⟨hcfg, hwr, -⟩ := hraised.keeps
    exact ⟨hraised.memInv hr.inv.mem, fun _ => ⟨by simp [hraised.rd], by simp [hraised.rd]⟩,
      fun _ => (hr.inv.wr hr.session).congr hcfg hwr⟩

/-! ## WRITE -/

/-- What a WRITE leaves alone: the read side, the receive queue, the destination, the parameters, the session, the
records, FLD's record and the agenda. -/
abbrev WriteKeeps (s t : State) : Prop :=
  t.cfg = s.cfg ∧ t.rd = s.rd ∧ t.sessionOpen = s.sessionOpen ∧ t.faults = s.faults ∧ t.rxq = s.rxq ∧
    t.arrivals = s.arrivals ∧ t.dst = s.dst ∧ t.fldAnswer = s.fldAnswer ∧ t.agenda = s.agenda

section
variable {src : List Byte} {s t : State} {new : List Event} {wr : WrState}

theorem WriteDone.keeps (h : WriteDone src s new wr t) : WriteKeeps s t := by
  obtain ⟨u, p, d, hst⟩ := h.state; rw [hst]; simp [WriteKeeps]

theorem WriteDone.history (h : WriteDone src s new wr t) : t.history = s.history ++ new ++
    (resumeIf .usb (writeFires .usb src s) ++ resumeIf .spi (writeFires .spi src s)) := by
  obtain ⟨u, p, d, hst⟩ := h.state; rw [hst]

end

@[simp] theorem poppedFrames_resumeIf (k : TransportKind) (fire : Bool) : poppedFrames (resumeIf k fire) = [] := by
  cases fire <;> rfl

/-- Steps 1 and 2 of a WRITE add Submit events, and at most a CorruptStream: no Pop and no Resume. -/
abbrev StreamEvents (new : List Event) : Prop := poppedFrames new = [] ∧ resumeSignals new = []

theorem streamEvents_submits (frames : List (List Byte)) : StreamEvents (frames.map submitEvent) := by
  induction frames with
  | nil => exact ⟨rfl, rfl⟩
  | cons frame frames ih => cases frame <;> exact ih

theorem WroteRest.streamEvents {cfg : Config} {rest : List Byte} {wr : WrState} {ends : List Event}
    (h : WroteRest cfg rest wr ends) : StreamEvents ends := by
  cases rest with
  | nil => obtain ⟨-, -, -, rfl⟩ := h.idle rfl; exact ⟨rfl, rfl⟩
  | cons b0 tl =>
    cases hfld : fld cfg b0 with
    | none => obtain ⟨-, -, -, rfl⟩ := h.corrupt b0 tl rfl hfld; exact ⟨rfl, rfl⟩
    | some n => obtain ⟨-, -, -, -, -, rfl⟩ := h.held b0 tl n rfl hfld; exact ⟨rfl, rfl⟩

/-- What steps 1 and 2 leave meets R33 and R34. -/
theorem WroteRest.wrInv {rest : List Byte} {ends : List Event} {t : State}
    (h : WroteRest t.cfg rest t.wr ends) : WrInv t := by
  cases rest with
  | nil =>
    obtain ⟨hfilled, hneeded, -, -⟩ := h.idle rfl
    exact ⟨.inl ⟨hfilled, hneeded⟩, fun _ => ⟨hfilled, hneeded⟩⟩
  | cons b0 tl =>
    cases hfld : fld t.cfg b0 with
    | none =>
      obtain ⟨hfilled, hneeded, -, -⟩ := h.corrupt b0 tl rfl hfld
      exact ⟨.inl ⟨hfilled, hneeded⟩, fun _ => ⟨hfilled, hneeded⟩⟩
    | some n =>
      obtain ⟨hheld, hfilled, htotal, hneeded, hreject, -⟩ := h.held b0 tl n rfl hfld
      have hpos : 1 ≤ t.wr.filled := by simp [hfilled]
      obtain ⟨tl', hcons, -⟩ := WrState.held_cons hpos
      obtain ⟨hb0, -⟩ := List.cons.inj (hcons.symm.trans hheld)
      exact ⟨.inr ⟨hpos, hneeded, by rw [hb0, hfld, htotal]⟩, by simp [hreject]⟩

/-- A WRITE from a ready state completes and keeps the invariant. -/
theorem Ready.write_done {s : State} (hr : Ready s) (src : List Byte) :
    ∃ new wr t, exec (.write src) s = .next t ∧ WriteDone src s new wr t ∧ StreamEvents new ∧ Inv t := by
  have hmem := hr.inv.mem
  have hrdInv {new : List Event} {wr : WrState} {t : State} (h : WriteDone src s new wr t) (hnew : StreamEvents new) :
      RdInv t := by
    obtain ⟨-, hrd, -⟩ := h.keeps
    exact (hr.inv.rd hr.session).congr hrd (by simp [h.history, hnew.1])
  cases hrej : s.wr.reject with
  | true =>
    obtain ⟨t, hexec, hdone⟩ := execWrite_rejecting (src := src) hr.session hrej
    obtain ⟨hcfg, hrd, -, -, -, -, hdst, -⟩ := hdone.keeps
    exact ⟨[], _, t, hexec, hdone, ⟨rfl, rfl⟩, hmem.congr hcfg hrd hdone.wr_eq hdst, fun _ => hrdInv hdone ⟨rfl, rfl⟩,
      fun _ => (hr.inv.wr hr.session).congr hcfg hdone.wr_eq⟩
  | false =>
    obtain ⟨frames, rest, wr, ends, t, -, hrest, hwf, hin, hexec, hdone⟩ := execWrite_cut (src := src) hr.cfg hr.session
      (hr.inv.wr hr.session) hrej hmem.wrWf hmem.wrIn
    obtain ⟨hcfg, hrd, -, -, -, -, hdst, -⟩ := hdone.keeps
    have hnew : StreamEvents (frames.map submitEvent ++ ends) := by
      obtain ⟨hpopped, hresume⟩ := streamEvents_submits frames
      obtain ⟨hpopped', hresume'⟩ := hrest.streamEvents
      exact ⟨by simp [hpopped, hpopped'], by simp [hresume, hresume']⟩
    obtain rfl := hdone.wr_eq
    exact ⟨_, _, t, hexec, hdone, hnew,
      ⟨by rw [hrd]; exact hmem.rdWf, by rw [hrd, hcfg]; exact hmem.rdIn, hwf, by rwa [hcfg],
        by rw [hdst]; exact hmem.dstWf⟩,
      fun _ => hrdInv hdone hnew, fun _ => WroteRest.wrInv (hcfg ▸ hrest)⟩

/-! ## Every instruction -/

/-- A record changes nothing that the invariant speaks of. -/
theorem Inv.of_raise {s : State} (h : Inv s) (r : FaultRecord) : Inv (raise r s) :=
  h.congr rfl rfl rfl rfl rfl rfl

/-- Every instruction keeps the invariant. -/
theorem Inv.of_exec {i : Instr} {s t : State} (hi : Inv s) (hc : ConfigOk s.cfg) (h : exec i s = .next t) : Inv t := by
  rcases exec_cases h with ⟨cap, rfl, hread⟩ | ⟨src, rfl, hwrite⟩ | ⟨-, hreset⟩ | ⟨b0, -, rfl⟩
  · cases hopen : s.sessionOpen with
    | true => exact Ready.read_inv ⟨hc, hi, hopen⟩ h
    | false =>
      rw [execRead_noSession hopen] at hread
      cases hread
      exact hi.of_raise _
  · cases hopen : s.sessionOpen with
    | true =>
      obtain ⟨-, -, t', hexec, -, -, hinv⟩ := Ready.write_done ⟨hc, hi, hopen⟩ src
      obtain rfl : t = t' := Host.Outcome.next.inj (h.symm.trans hexec)
      exact hinv
    | false =>
      rw [execWrite_noSession hopen] at hwrite
      cases hwrite
      exact hi.of_raise _
  · exact hi.mem.inv_of_execReset hreset
  · exact hi.congr rfl rfl rfl rfl rfl rfl

/-- Every instruction leads from a ready state to a ready state. -/
theorem Ready.of_exec {i : Instr} {s t : State} (hr : Ready s) (h : exec i s = .next t) : Ready t := by
  obtain ⟨-, -, hopen, hcfg⟩ := exec_kept h
  exact ⟨by rw [hcfg]; exact hr.cfg, hr.inv.of_exec hr.cfg h, hopen hr.session⟩

/-! ## The obligations -/

/-- Settles O15: a step is an instruction, a record, or a move of the surroundings; the last two touch no register. -/
theorem invariantIsKeptByEveryStep : Obligations.InvariantIsKeptByEveryStep := by
  intro s t hi h
  obtain ⟨hc, -, hmove⟩ := step_cases h
  rcases hmove with ⟨w, i, rest, -, -, hexec⟩ | ⟨rfl, -⟩ | ⟨_, _, _, rest, -, -, -, rfl⟩ | ⟨_, _, -, rfl⟩ |
    ⟨_, _, _, -, rfl⟩
  · have hrest : Inv { s with agenda := rest } := hi.congr rfl rfl rfl rfl rfl rfl
    exact hrest.of_exec hc hexec
  · exact hi
  all_goals exact hi.congr rfl rfl rfl rfl rfl rfl

/-- Settles O14: both directions are idle and no memory lists a byte. -/
theorem invariantHoldsAtReset : Obligations.InvariantHoldsAtReset :=
  Inv.of_idle ⟨Memory.wf_nil, nofun, Memory.wf_nil, nofun, Memory.wf_nil⟩ rfl rfl rfl

/-- Settles O49: RESET leaves both directions idle whatever the registers held. -/
theorem resetOpensASessionFromPowerOn : Obligations.ResetOpensASessionFromPowerOn :=
  fun _ hpower hmem hc => ⟨_, rfl, ⟨hc, hmem.inv_of_execReset rfl, rfl⟩, rfl, rfl, hpower.history, hpower.faults⟩

end Sys2Proof.Machine
end

section
/-! SUPPORT. READ from a ready state, the rest: the response word (R94), exact fits (R105), capacity 0 (R113), raised
faults (R202, R204), and what a READ leaves alone. -/

namespace Sys2Proof.Machine

/-! ## The response word -/

/-- The LEN field has at least one bit (R9). -/
theorem lenFieldBits_pos {cfg : Config} (hc : ConfigOk cfg) : 1 ≤ cfg.lenFieldBits := by
  obtain ⟨-, -, -, hbits⟩ := (configOk_iff cfg).1 hc
  omega

section
variable {lfb n : Nat} (pending : Bool) (hn : n < 2 ^ lfb)
include hn

theorem bits_readResponse_count (hlfb : 1 ≤ lfb) : bits (readResponse lfb n pending) (lfb - 1) 0 = n := by
  rw [bits, readResponse, pow_zero, Nat.div_one, show lfb - 1 + 1 - 0 = lfb by omega, Nat.add_mul_mod_self_left,
    Nat.mod_eq_of_lt hn]

theorem bits_readResponse_pending : bits (readResponse lfb n pending) lfb lfb = pending.toNat := by
  rw [bits, readResponse, Nat.add_mul_div_left _ _ (Nat.two_pow_pos lfb), Nat.div_eq_of_lt hn, Nat.zero_add,
    Nat.add_sub_cancel_left]
  exact Nat.mod_eq_of_lt pending.toNat_lt

theorem readResponse_lt : readResponse lfb n pending < 2 ^ (lfb + 1) := by
  have hflag : 2 ^ lfb * pending.toNat ≤ 2 ^ lfb * 1 := Nat.mul_le_mul_left _ (Bool.toNat_le pending)
  rw [readResponse, Nat.pow_succ]
  omega

end

/-! ## The fields of a READ's answer -/

section
variable {cap m : Nat} {s t : State} {popped : List Frame}

theorem ReadDone.faults (h : ReadDone cap s popped m t) : t.faults = s.faults := by
  obtain ⟨q, hst⟩ := h.state; rw [hst]

theorem ReadDone.arrivals (h : ReadDone cap s popped m t) : t.arrivals = s.arrivals.drop m := by
  obtain ⟨q, hst⟩ := h.state; rw [hst]

/-- COUNT, where the LEN field can hold it. -/
theorem ReadDone.countOf_eq (h : ReadDone cap s popped m t) (hc : ConfigOk s.cfg)
    (hcap : cap < 2 ^ s.cfg.lenFieldBits) : countOf t = ((s.rd.held ++ wireBytes popped).take cap).length := by
  obtain ⟨hcfg, -⟩ := h.keeps
  unfold countOf
  rw [h.response, hcfg]
  exact bits_readResponse_count _ ((List.length_take_le _ _).trans_lt hcap) (lenFieldBits_pos hc)

/-- The bytes that COUNT reads back from the destination are those delivered. -/
theorem ReadDone.returned_eq (h : ReadDone cap s popped m t) (hc : ConfigOk s.cfg)
    (hcap : cap < 2 ^ s.cfg.lenFieldBits) : returned t = (s.rd.held ++ wireBytes popped).take cap := by
  rw [returned, h.countOf_eq hc hcap, h.dst]
  exact Memory.readRange_write_self _ _ _

end

section
variable {cap m : Nat} {s t : State} {good : List Frame} {bad : Frame}

theorem ReadRaised.response (h : ReadRaised cap s good bad m t) : t.response = none := by
  obtain ⟨q, hst⟩ := h.state; rw [hst]; rfl

theorem ReadRaised.faults (h : ReadRaised cap s good bad m t) (hf : s.faults = []) :
    t.faults = [.rxCorrupt bad.b0] := by
  obtain ⟨q, hst⟩ := h.state
  simp [hst, hf]

end

/-! ## Frames and their bytes -/

/-- Every frame has its first byte (R71). -/
theorem length_le_wireBytes (fs : List Frame) : fs.length ≤ (wireBytes fs).length := by
  induction fs with
  | nil => exact le_rfl
  | cons f fs ih => rw [wireBytes_cons, List.length_append, List.length_cons, Frame.bytes_length]; omega

theorem eq_nil_of_wireBytes_eq_nil {fs : List Frame} (h : wireBytes fs = []) : fs = [] := by
  have hlen := length_le_wireBytes fs
  rw [h] at hlen
  exact List.eq_nil_of_length_eq_zero (by simpa using hlen)

/-- All frames but the last are shorter than all frames. -/
theorem wireBytes_dropLast_lt {fs : List Frame} (h : fs ≠ []) :
    (wireBytes fs.dropLast).length < (wireBytes fs).length := by
  conv_rhs => rw [← List.dropLast_append_getLast h]
  simp

/-- Frames that fill the destination exactly end the pops (R105). -/
theorem popsEndAt_exact {cap n : Nat} {fs q : List Frame} (h : n + (wireBytes fs).length = cap) :
    PopsEndAt cap n fs q :=
  ⟨fun hne => by have := wireBytes_dropLast_lt hne; omega, fun hlt => by omega⟩

/-- The first element that fails a test stands at one place in a list. -/
theorem first_failing_unique {α : Type} {p : α → Prop} {l l' r r' : List α} {a a' : α}
    (h : l ++ a :: r = l' ++ a' :: r') (hl : ∀ x ∈ l, p x) (hl' : ∀ x ∈ l', p x) (ha : ¬ p a) (ha' : ¬ p a') :
    l = l' ∧ a = a' ∧ r = r' := by
  induction l generalizing l' with
  | nil =>
    cases l' with
    | nil => simpa using h
    | cons y l' => exact absurd (hl' y (by simp)) ((List.cons.inj h).1 ▸ ha)
  | cons x l ih =>
    cases l' with
    | nil => exact absurd (hl x (by simp)) ((List.cons.inj h).1 ▸ ha')
    | cons y l' =>
      obtain ⟨rfl, htl⟩ := List.cons.inj h
      obtain ⟨rfl, rest⟩ := ih htl (fun z hz => hl z (by simp [hz])) (fun z hz => hl' z (by simp [hz]))
      exact ⟨rfl, rest⟩

/-! ## Capacity 0 -/

/-- With no room READ delivers nothing and pops nothing (R113). -/
theorem readBody_zero {s : State} (hr : Ready s) : readBody 0 s = .ok (0, s) := by
  have hdrain : readDrain 0 s = .ok (0, s) := by
    rw [readDrain_ok hr.filled_le_ovfCap]
    simp [Memory.write_zero_nil, RdState.held, Memory.write_readRange_self hr.inv.mem.rdWf]
  unfold readBody
  rw [hdrain]
  simp only
  split <;> rfl

/-! ## The obligations -/

/-- Settles O18: the pops end where the destination is full, and the whole stream is delivered. -/
theorem readExactFitPopsNoFurther : Obligations.ReadExactFitPopsNoFurther := by
  intro s cap fs q hr harr hqueue hok hfit
  obtain ⟨m, t, hexec, hdone, hrest⟩ := hr.read_of_popsEndAt harr hqueue hok (popsEndAt_exact hfit)
  have hlen : (s.rd.held ++ wireBytes fs).length = cap := by simpa using hfit
  have hfilled : t.rd.filled = 0 := by rw [hdone.filled]; omega
  refine ⟨t, hexec, ?_, hfilled, hrest, hdone.history, ?_⟩
  · rw [hdone.dst_readRange (by omega) (by omega), List.drop_zero, List.take_of_length_le hlen.le]
  · rw [hdone.response, hfilled, List.length_take, hlen, Nat.min_self]
    rfl

/-- Settles O22: COUNT fits the LEN field, so RD_PENDING stands above it and nothing else does. -/
theorem readResponseBits : Obligations.ReadResponseBits := by
  intro s cap hr hq hcap
  obtain ⟨popped, m, t, hexec, hdone⟩ := hr.read_answers hq cap
  have hcount := List.length_take_le cap (s.rd.held ++ wireBytes popped)
  have hfits := hcount.trans_lt hcap
  refine ⟨t, _, popped, _, hexec, hdone.response, hdone.history, hdone.stream, hdone.dst, hcount,
    bits_readResponse_count _ hfits (lenFieldBits_pos hr.cfg), readResponse_lt _ hfits, ?_,
    hdone.returned_eq hr.cfg hcap⟩
  rw [bits_readResponse_pending _ hfits]
  simp

/-- Settles O23: the tail and the frames popped are one stream, cut at C. -/
theorem readConservesTheStream : Obligations.ReadConservesTheStream := by
  intro s cap hr hq
  obtain ⟨popped, m, t, hexec, hdone⟩ := hr.read_answers hq cap
  refine ⟨t, popped, _, m, hexec, hdone.history, hdone.dst, hdone.stream, List.length_take_le _ _, hdone.fifo,
    hdone.arrivals, fun hlt => hdone.short ?_⟩
  rw [List.length_take] at hlt
  omega

/-- Settles O24: READ's body changes nothing, so the response is all there is. -/
theorem readOfNothingChangesNothing : Obligations.ReadOfNothingChangesNothing := by
  intro s hr
  change execRead 0 s = _
  unfold execRead
  rw [if_neg (by simp [hr.session]), readBody_zero hr]
  rfl

/-- Settles O25: the pops reach the bad frame while there is room, and it is the first that is not well formed. -/
theorem readRaisesRxCorrupt : Obligations.ReadRaisesRxCorrupt := by
  intro s cap fs q bad hr harr hqueue hok hbad hf hroom
  have hfifo : ∀ m, s.rxq ++ (s.arrivals.take m).flatten = fs ++ bad :: q := fun m => by simp [harr, hqueue]
  rcases hr.read_cases cap with ⟨popped, m, t, -, hdone⟩ | ⟨good, bad', m, t, hexec, hraised⟩
  · have hmem := hdone.popsEndAt.mem_of_room (hdone.fifo.trans (hfifo m)) hroom
    exact absurd (hdone.popped_ok bad hmem) hbad
  · obtain ⟨rfl, rfl, rfl⟩ :=
      first_failing_unique (hraised.fifo.trans (hfifo m)) hraised.good_ok hok hraised.bad_not_ok hbad
    exact ⟨t, hexec, hraised.faults hf, hraised.response, hraised.history, rfl⟩

/-- Settles O26: the session is looked at first. -/
theorem readAndWriteNeedASession : Obligations.ReadAndWriteNeedASession := by
  intro s cap src hopen hf
  rw [← raise_of_no_faults hf]
  exact ⟨execRead_noSession hopen, execWrite_noSession hopen⟩

/-- Settles O27: the destination is written in one piece from 0, no longer than C, and RD.buf as far as RD.filled. -/
theorem readFrame : Obligations.ReadFrame := by
  intro s t cap hr h
  rcases hr.read_outcome h with ⟨popped, m, hdone⟩ | ⟨good, bad, m, hraised⟩
  · obtain ⟨hcfg, hwr, hopen, husb, hspi, hdraws, hfld, hagenda⟩ := hdone.keeps
    have hbehind (a : Nat) (ha : ((s.rd.held ++ wireBytes popped).take cap).length ≤ a) :
        t.dst.read a = s.dst.read a := by
      rw [hdone.dst]
      exact Memory.read_write_out (.inr (by omega))
    refine ⟨hcfg, hwr, hopen, husb, hspi, hdraws, hfld, hagenda, fun _ => hdone.faults,
      fun a ha => hbehind a ((List.length_take_le _ _).trans ha),
      fun a _ hcap ha => hbehind a (hdone.countOf_eq hr.cfg hcap ▸ ha), fun a ha => ?_⟩
    rw [hdone.buf]
    exact Memory.read_write_out (.inr (by rwa [← hdone.held, RdState.held_length, Nat.zero_add]))
  · obtain ⟨hcfg, hwr, hopen, husb, hspi, hdraws, hfld, hagenda⟩ := hraised.keeps
    refine ⟨hcfg, hwr, hopen, husb, hspi, hdraws, hfld, hagenda, fun hne => absurd hraised.response hne, fun a ha => ?_,
      fun a hne => absurd hraised.response hne, fun a _ => by rw [hraised.rd]⟩
    rw [hraised.dst]
    exact Memory.read_write_out (.inr (by have := hraised.room; omega))

/-- Settles O28: all frames popped but the last take their bytes of the destination, and the last found room. -/
theorem readPopsAtMostCapacityFrames : Obligations.ReadPopsAtMostCapacityFrames := by
  intro s t cap hr h
  have hbound (fs : List Frame) (hroom : fs ≠ [] → (s.rd.held ++ wireBytes fs.dropLast).length < cap) :
      fs.length ≤ cap := by
    have hlen := length_le_wireBytes fs.dropLast
    rw [List.length_dropLast] at hlen
    by_cases hne : fs = []
    · simp [hne]
    · have := hroom hne
      rw [List.length_append] at this
      omega
  rcases hr.read_outcome h with ⟨popped, m, hdone⟩ | ⟨good, bad, m, hraised⟩
  · simpa [hdone.history] using hbound popped hdone.room
  · rw [hraised.history, poppedFrames_append, poppedFrames_popEvents, List.length_append, List.length_map]
    have := hbound (good ++ [bad]) fun _ => by rw [List.dropLast_concat]; exact hraised.room
    omega

end Sys2Proof.Machine
end

section
/-! SUPPORT. READs in a row over a well-formed queue to which nothing is added: each delivers the front of what is left
of one stream (R95, R114). -/

namespace Sys2Proof.Machine

/-- What the READs have yet to deliver: the pending tail and the queue. -/
def State.unread (s : State) : List Byte := s.rd.held ++ wireBytes s.rxq

theorem State.unread_length (s : State) : s.unread.length = s.rd.filled + (wireBytes s.rxq).length := by
  rw [unread, List.length_append, RdState.held_length]

/-- With nothing left to deliver the read side is idle and the queue is empty. -/
theorem State.idle_of_unread_eq_nil {s : State} (h : s.unread = []) : s.rd.filled = 0 ∧ s.rxq = [] := by
  obtain ⟨hheld, hqueue⟩ := List.append_eq_nil_iff.1 h
  exact ⟨by rw [← RdState.held_length, hheld]; rfl, eq_nil_of_wireBytes_eq_nil hqueue⟩

/-- A ready state with a well-formed queue, to which nothing is added between the pops. -/
structure QueueReady (s : State) : Prop where
  ready : Ready s
  arrivals : s.arrivals = []
  frames : ∀ f ∈ s.rxq, f.Ok s.cfg

section
variable {s : State}

/-- One READ delivers the first C bytes of what is left. -/
theorem QueueReady.read (h : QueueReady s) {cap : Nat} (hcap : cap < 2 ^ s.cfg.lenFieldBits) :
    ∃ t, exec (.read cap) s = .next t ∧ QueueReady t ∧ t.cfg = s.cfg ∧ returned t = s.unread.take cap ∧
      countOf t = (s.unread.take cap).length ∧ t.unread = s.unread.drop cap := by
  obtain ⟨popped, m, t, hexec, hdone⟩ := h.ready.read_answers ⟨h.frames, by simp [h.arrivals]⟩ cap
  obtain ⟨hcfg, -⟩ := hdone.keeps
  have hqueue : popped ++ t.rxq = s.rxq := by simpa [h.arrivals] using hdone.fifo
  have hunread : s.unread = (s.rd.held ++ wireBytes popped) ++ wireBytes t.rxq := by
    rw [State.unread, ← hqueue, wireBytes_append, List.append_assoc]
  have htake : s.unread.take cap = (s.rd.held ++ wireBytes popped).take cap := by
    by_cases hshort : (s.rd.held ++ wireBytes popped).length < cap
    · rw [hunread, hdone.short hshort, wireBytes_nil, List.append_nil]
    · rw [hunread, List.take_append_of_le_length (by omega)]
  have hsplit : (s.rd.held ++ wireBytes popped).take cap ++ t.unread = s.unread := by
    rw [hunread, State.unread, ← List.append_assoc, hdone.stream]
  have hdrop : s.unread.drop cap = t.unread := by
    refine List.append_cancel_left (as := s.unread.take cap) ?_
    rw [List.take_append_drop, htake, hsplit]
  refine ⟨t, hexec, ⟨h.ready.of_exec hexec, by simp [hdone.arrivals, h.arrivals], fun f hf => ?_⟩, hcfg, ?_, ?_,
    hdrop.symm⟩
  · rw [hcfg]
    exact h.frames f (by rw [← hqueue]; simp [hf])
  · rw [htake, hdone.returned_eq h.ready.cfg hcap]
  · rw [htake, hdone.countOf_eq h.ready.cfg hcap]

/-- READs in a row deliver the front of what is left, as long as their capacities together. -/
theorem QueueReady.readAll {caps : List Nat} (h : QueueReady s) (hcaps : ∀ c ∈ caps, c < 2 ^ s.cfg.lenFieldBits) :
    ∃ t, readAll caps s = some (s.unread.take caps.sum, t) ∧ t.unread = s.unread.drop caps.sum := by
  induction caps generalizing s with
  | nil => exact ⟨s, by simp [Machine.readAll]⟩
  | cons c cs ih =>
    obtain ⟨t, hexec, hready, hcfg, hreturned, -, hunread⟩ := h.read (hcaps c (by simp))
    obtain ⟨u, hall, hrest⟩ := ih hready fun d hd => by rw [hcfg]; exact hcaps d (by simp [hd])
    refine ⟨u, ?_, by rw [hrest, hunread, List.drop_drop, List.sum_cons]⟩
    rw [Machine.readAll, hexec]
    simp only [hall, Option.map_some, hreturned, hunread, List.sum_cons, List.take_add]

/-- DRAIN ends with the first READ that delivers fewer than C bytes: by then nothing is left. -/
theorem QueueReady.drain {cap fuel : Nat} (h : QueueReady s) (hpos : 1 ≤ cap) (hcap : cap < 2 ^ s.cfg.lenFieldBits)
    (hfuel : s.unread.length < fuel) :
    ∃ t, drain cap fuel s = .next t ∧ t.rd.filled = 0 ∧ t.rxq = [] ∧ countOf t < cap := by
  induction fuel generalizing s with
  | zero => omega
  | succ fuel ih =>
    obtain ⟨t, hexec, hready, hcfg, -, hcount, hunread⟩ := h.read hcap
    rw [List.length_take] at hcount
    unfold Machine.drain
    rw [hexec]
    simp only
    by_cases hshort : countOf t < cap
    · rw [if_pos hshort]
      obtain ⟨hfilled, hqueue⟩ := State.idle_of_unread_eq_nil (hunread.trans (List.drop_eq_nil_of_le (by omega)))
      exact ⟨t, rfl, hfilled, hqueue, hshort⟩
    · rw [if_neg hshort]
      exact ih hready (hcfg ▸ hcap) (by rw [hunread, List.length_drop]; omega)

end

/-! ## The obligations -/

/-- Settles O29: with an idle read side the queue is all there is to deliver, and the capacities cover it. -/
theorem readsReturnTheQueueInAnyChunks : Obligations.ReadsReturnTheQueueInAnyChunks := by
  intro s caps hr hidle harr hok hcaps hcover
  have hunread : s.unread = wireBytes s.rxq := by simp [State.unread, RdState.held, hidle]
  obtain ⟨t, hall, hrest⟩ := QueueReady.readAll ⟨hr, harr, hok⟩ fun c hc => (hcaps c hc).2
  rw [hunread, List.take_of_length_le hcover] at hall
  rw [hunread, List.drop_eq_nil_of_le hcover] at hrest
  exact ⟨t, hall, State.idle_of_unread_eq_nil hrest⟩

/-- Settles O30: every READ of DRAIN but the last shortens what is left by C bytes. -/
theorem drainEmptiesTheReadSide : Obligations.DrainEmptiesTheReadSide :=
  fun s _ _ hr harr hok hpos hcap hfuel =>
    QueueReady.drain ⟨hr, harr, hok⟩ hpos hcap (s.unread_length.trans_lt hfuel)

end Sys2Proof.Machine
end

section
/-! SUPPORT. WRITE from a ready state, the rest: what steps 1 and 2 leave of the write side exactly, what step 3 signals
and takes, the cut of the stream over one WRITE and over many (R132, R135, R137, R140, R171, R257). -/

namespace Sys2Proof.Machine

/-! ## Steps 1 and 2 exactly -/

/-- The write side after an input that is shorter than what is needed (R135). -/
def WrState.extended (wr : WrState) (src : List Byte) : WrState :=
  ⟨wr.buf.write wr.filled src, wr.filled + src.length, wr.needed - src.length, wr.reject⟩

/-- The write side after an input that completes the pending frame, if there is one (R133). -/
def WrState.completed (wr : WrState) (src : List Byte) : WrState :=
  ⟨wr.buf.write wr.filled (src.take wr.needed), 0, 0, false⟩

section
variable {s : State} {src rest : List Byte} {frames : List (List Byte)}

/-- Nothing is held where nothing is needed (R33). -/
theorem WrInv.filled_eq_zero (hi : WrInv s) (hn : s.wr.needed = 0) : s.wr.filled = 0 := by
  rcases hi.counters with ⟨hfilled, -⟩ | ⟨-, hpos, -⟩
  · exact hfilled
  · omega

theorem WrInv.held_eq_nil (hi : WrInv s) (hn : s.wr.needed = 0) : s.wr.held = [] :=
  List.eq_nil_of_length_eq_zero ((WrState.held_length _).trans (hi.filled_eq_zero hn))

/-- With nothing pending there is nothing to complete. -/
theorem WrInv.completed_of_idle (hi : WrInv s) (hrej : s.wr.reject = false) (hn : s.wr.needed = 0) :
    s.wr.completed src = s.wr := by
  have hfilled := hi.filled_eq_zero hn
  obtain ⟨cfg, rd, ⟨buf, filled, needed, reject⟩⟩ := s
  simp only at hrej hn hfilled
  simp [WrState.completed, hrej, hn, hfilled, Memory.write_zero_nil]

/-- The pending bytes begin a frame that is not whole yet (R33). -/
theorem WrInv.held_stop (hi : WrInv s) : NoFrameYet s.cfg s.wr.held ∧ ¬ Unrecognised s.cfg s.wr.held := by
  rcases Nat.eq_zero_or_pos s.wr.needed with hn | hn
  · rw [hi.held_eq_nil hn]
    exact ⟨trivial, id⟩
  · obtain ⟨hfilled, hfld⟩ := hi.pending hn
    obtain ⟨tl, hheld, hlen⟩ := WrState.held_cons hfilled
    rw [hheld]
    refine ⟨fun n h => ?_, fun h => ?_⟩
    · rw [hfld] at h
      cases h
      omega
    · exact nomatch hfld.symm.trans h

/-- Step 2 submits the frames of the cut of its input and ends as the rest says. -/
theorem writeCut_of_isCut (hc : ConfigOk s.cfg) (h : IsCut s.cfg src frames rest) :
    writeCut src.length src s = .ok { s with
      history := s.history ++ (frames.map submitEvent ++ (cutEnd s.cfg s.wr rest).2)
      wr := (cutEnd s.cfg s.wr rest).1 } := by
  obtain ⟨frames', rest', hcut, hbody⟩ := writeCut_spec src.length hc le_rfl
  obtain ⟨rfl, rfl⟩ := h.unique hcut
  exact hbody

/-- Steps 1 and 2 on an input shorter than what is needed (R135). -/
theorem writeBody_extended (hc : ConfigOk s.cfg) (hi : WrInv s) (hrej : s.wr.reject = false)
    (hlt : src.length < s.wr.needed) : writeBody src s = .ok { s with wr := s.wr.extended src } := by
  obtain ⟨-, hfld⟩ := hi.pending (by omega)
  have hfit : s.wr.filled + s.wr.needed ≤ s.cfg.ovfCap :=
    (fld_range hc hfld).2.trans ((by decide : maxFrame ≤ minOvfCap).trans (ovfCap_ge hc))
  unfold writeBody
  rw [if_neg (by simp [hrej]), if_neg (by omega), if_pos hlt, writeExtend_ok (by omega)]
  rfl

/-- Steps 1 and 2 on an input that leaves no pending frame incomplete: the cut of the bytes held and the input. -/
theorem writeBody_cut (hc : ConfigOk s.cfg) (hi : WrInv s) (hrej : s.wr.reject = false)
    (hle : s.wr.needed ≤ src.length) (hcut : IsCut s.cfg (s.wr.held ++ src) frames rest) :
    writeBody src s = .ok { s with
      history := s.history ++ (frames.map submitEvent ++ (cutEnd s.cfg (s.wr.completed src) rest).2)
      wr := (cutEnd s.cfg (s.wr.completed src) rest).1 } := by
  rcases Nat.eq_zero_or_pos s.wr.needed with hn | hn
  · rw [hi.held_eq_nil hn, List.nil_append] at hcut
    rw [hi.completed_of_idle hrej hn, writeBody_idle hrej hn, writeCut_of_isCut hc hcut]
  · obtain ⟨frames', rest', hcut', hbody⟩ := writeCut_spec (src.drop s.wr.needed).length (src := src.drop s.wr.needed)
      (s := { s with
        history := s.history ++ [submitEvent (s.wr.held ++ src.take s.wr.needed)]
        wr := s.wr.completed src }) hc le_rfl
    have hwhole := IsCut.cons (hi.isFrame_completed hn hle) hcut'
    rw [List.append_assoc, List.take_append_drop] at hwhole
    obtain ⟨rfl, rfl⟩ := hcut.unique hwhole
    rw [writeBody_completes hc hi hrej hn hle, writeBody_idle rfl rfl]
    refine hbody.trans ?_
    simp

/-- WRITE in an open session, from the events and the write side of its steps 1 and 2. -/
theorem execWrite_of_body {new : List Event} {wr : WrState} (ho : s.sessionOpen = true)
    (h : writeBody src s = .ok { s with history := s.history ++ new, wr := wr }) :
    ∃ t, exec (.write src) s = .next t ∧ WriteDone src s new wr t :=
  ⟨_, execWrite_ok ho h, writeFinish_done src s new wr⟩

/-- A WRITE that leaves the pending frame incomplete. -/
theorem Ready.write_extended (hr : Ready s) (hrej : s.wr.reject = false) (hlt : src.length < s.wr.needed) :
    ∃ t, exec (.write src) s = .next t ∧ WriteDone src s [] (s.wr.extended src) t :=
  execWrite_of_body hr.session
    ((writeBody_extended hr.cfg (hr.inv.wr hr.session) hrej hlt).trans (by rw [List.append_nil]))

/-- A WRITE that leaves no pending frame incomplete. -/
theorem Ready.write_completed (hr : Ready s) (hrej : s.wr.reject = false) (hle : s.wr.needed ≤ src.length)
    (hcut : IsCut s.cfg (s.wr.held ++ src) frames rest) :
    ∃ t, exec (.write src) s = .next t ∧
      WriteDone src s (frames.map submitEvent ++ (cutEnd s.cfg (s.wr.completed src) rest).2)
        (cutEnd s.cfg (s.wr.completed src) rest).1 t :=
  execWrite_of_body hr.session (writeBody_cut hr.cfg (hr.inv.wr hr.session) hrej hle hcut)

/-- Every way a WRITE from a ready state can have gone: it rejects, it leaves the pending frame incomplete, or it cuts
the bytes held and its input. -/
theorem Ready.write_outcome {t : State} (hr : Ready s) (h : exec (.write src) s = .next t) :
    (s.wr.reject = true ∧ WriteDone src s [] s.wr t) ∨
    (src.length < s.wr.needed ∧ WriteDone src s [] (s.wr.extended src) t) ∨
    (s.wr.needed ≤ src.length ∧ ∃ frames rest, IsCut s.cfg (s.wr.held ++ src) frames rest ∧
      WriteDone src s (frames.map submitEvent ++ (cutEnd s.cfg (s.wr.completed src) rest).2)
        (cutEnd s.cfg (s.wr.completed src) rest).1 t) := by
  cases hrej : s.wr.reject with
  | true =>
    obtain ⟨t', hexec, hdone⟩ := execWrite_rejecting (src := src) hr.session hrej
    obtain rfl : t = t' := Host.Outcome.next.inj (h.symm.trans hexec)
    exact .inl ⟨rfl, hdone⟩
  | false =>
    rcases Nat.lt_or_ge src.length s.wr.needed with hlt | hle
    · obtain ⟨t', hexec, hdone⟩ := hr.write_extended hrej hlt
      obtain rfl : t = t' := Host.Outcome.next.inj (h.symm.trans hexec)
      exact .inr (.inl ⟨hlt, hdone⟩)
    · obtain ⟨frames, rest, hcut⟩ := IsCut.exists_of_length s.cfg _ (s.wr.held ++ src) le_rfl
      obtain ⟨t', hexec, hdone⟩ := hr.write_completed hrej hle hcut
      obtain rfl : t = t' := Host.Outcome.next.inj (h.symm.trans hexec)
      exact .inr (.inr ⟨hle, frames, rest, hcut, hdone⟩)

end

/-- The end of a cut stores its rest at the front of WR.buf and touches no other byte (R139). -/
theorem cutEnd_read {cfg : Config} {wr : WrState} {rest : List Byte} {a : Nat}
    (h : (cutEnd cfg wr rest).1.filled ≤ a) : (cutEnd cfg wr rest).1.buf.read a = wr.buf.read a := by
  cases rest with
  | nil => rfl
  | cons b0 tl =>
    cases hfld : fld cfg b0 with
    | none => simp only [cutEnd, hfld]
    | some n =>
      simp only [cutEnd, hfld] at h ⊢
      exact Memory.read_write_out (.inr (by simpa using h))

/-! ## What the rest of a cut says of the write side -/

section
variable {cfg : Config} {rest : List Byte} {wr : WrState} {ends : List Event}

theorem WroteRest.of_unrecognised (h : WroteRest cfg rest wr ends) (hu : Unrecognised cfg rest) :
    wr.reject = true ∧ wr.held = [] ∧ wr.needed = 0 := by
  cases rest with
  | nil => exact hu.elim
  | cons b0 tl =>
    obtain ⟨hfilled, hneeded, hreject, -⟩ := h.corrupt b0 tl rfl hu
    exact ⟨hreject, List.eq_nil_of_length_eq_zero ((WrState.held_length _).trans hfilled), hneeded⟩

theorem WroteRest.of_recognised (h : WroteRest cfg rest wr ends) (hu : ¬ Unrecognised cfg rest) :
    wr.reject = false ∧ wr.held = rest := by
  cases rest with
  | nil =>
    obtain ⟨hfilled, -, hreject, -⟩ := h.idle rfl
    exact ⟨hreject, List.eq_nil_of_length_eq_zero ((WrState.held_length _).trans hfilled)⟩
  | cons b0 tl =>
    cases hfld : fld cfg b0 with
    | none => exact absurd hfld hu
    | some n =>
      obtain ⟨hheld, -, -, -, hreject, -⟩ := h.held b0 tl n rfl hfld
      exact ⟨hreject, hheld⟩

end

/-! ## Signals and frames -/

theorem submittedFrames_submits_length (frames : List (List Byte)) :
    (submittedFrames (frames.map submitEvent)).length = frames.length := by
  induction frames with
  | nil => rfl
  | cons frame frames ih => cases frame <;> exact congrArg (· + 1) ih

theorem mem_resumeSignals {k : TransportKind} {h : List Event} : k ∈ resumeSignals h ↔ .resume k ∈ h := by
  unfold resumeSignals
  rw [List.mem_filterMap]
  constructor
  · rintro ⟨e, he, heq⟩
    cases e with
    | resume k' => cases heq; exact he
    | submit bs bus => cases heq
    | pop bs => cases heq
    | corruptStream b0 => cases heq
  · exact fun he => ⟨_, he, rfl⟩

@[simp] theorem resumeSignals_resumeIf (k : TransportKind) (fire : Bool) :
    resumeSignals (resumeIf k fire) = if fire then [k] else [] := by
  cases fire <;> rfl

/-- The four bits of a WRITE's response word (R93). -/
theorem writeResponse_bits : ∀ resumeUsb resumeSpi pending reject : Bool,
    writeResponse resumeUsb resumeSpi pending reject < 16 ∧
    (bits (writeResponse resumeUsb resumeSpi pending reject) 0 0 = 1 ↔ resumeUsb = true) ∧
    (bits (writeResponse resumeUsb resumeSpi pending reject) 1 1 = 1 ↔ resumeSpi = true) ∧
    (bits (writeResponse resumeUsb resumeSpi pending reject) 2 2 = 1 ↔ pending = true) ∧
    (bits (writeResponse resumeUsb resumeSpi pending reject) 3 3 = 1 ↔ reject = true) := by
  decide

section
variable {src : List Byte} {s t : State} {new : List Event} {wr : WrState}

theorem WriteDone.response (h : WriteDone src s new wr t) : t.response =
    some (writeResponse (writeFires .usb src s) (writeFires .spi src s) (wrPending wr) wr.reject) := by
  obtain ⟨u, p, d, hst⟩ := h.state; rw [hst]

/-- The signals of a WRITE are those of its step 3 (R140). -/
theorem WriteDone.resumeSignals_eq (h : WriteDone src s new wr t) (hnew : StreamEvents new) :
    resumeSignals t.history = resumeSignals s.history ++
      ((if writeFires .usb src s then [.usb] else []) ++ (if writeFires .spi src s then [.spi] else [])) := by
  simp only [h.history, resumeSignals_append, hnew.2, resumeSignals_resumeIf, List.append_nil]

/-- Where TAN runs it signals a transport exactly when the answer reaches the threshold (R171, R172). -/
theorem writeFires_of_runs (h : tanRuns (writeIncomplete src s.wr) s.cfg = true) :
    writeFires .usb src s = decide (s.cfg.tUsb ≤ usbAnswer s) ∧
    writeFires .spi src s = decide (s.cfg.tSpi ≤ spiAnswer s) := by
  rw [writeFires, writeFires, h, Bool.true_and, Bool.true_and]
  exact ⟨rfl, rfl⟩

end

/-- An incomplete pending frame with NOTIFY_ON_INCOMPLETE = false ends the WRITE without TAN (R178). -/
theorem writeFinish_quiet {s : State} (h : s.cfg.notifyOnIncomplete = false) : writeFinish true s =
    respond (writeResponse false false (wrPending s.wr) s.wr.reject) s := by
  simp [writeFinish, h]

/-- Every frame has at least six bytes (R8, R78). -/
theorem IsFrame.minFrame_le {cfg : Config} {bs : List Byte} (h : IsFrame cfg bs) : minFrame ≤ bs.length := by
  cases bs with
  | nil => exact h.elim
  | cons b0 tl => exact fld_pos h

theorem minFrame_mul_length_le {cfg : Config} {frames : List (List Byte)} (h : ∀ bs ∈ frames, IsFrame cfg bs) :
    minFrame * frames.length ≤ frames.flatten.length := by
  induction frames with
  | nil => exact le_rfl
  | cons frame frames ih =>
    have hframe := (h frame (by simp)).minFrame_le
    have hframes := ih fun bs hbs => h bs (by simp [hbs])
    rw [List.flatten_cons, List.length_append, List.length_cons, Nat.mul_succ]
    omega

/-- A frame at the front of a stream is longer than a front of the stream that holds no whole frame. -/
theorem IsFrame.length_lt {cfg : Config} {frame tl held src : List Byte} (h : IsFrame cfg frame)
    (hstop : NoFrameYet cfg held) (hstream : held ++ src = frame ++ tl) : held.length < frame.length := by
  cases held with
  | nil => exact Nat.lt_of_lt_of_le (by decide) h.minFrame_le
  | cons b0 held =>
    cases frame with
    | nil => exact h.elim
    | cons b frame =>
      obtain ⟨rfl, -⟩ := List.cons.inj hstream
      exact hstop _ h

/-! ## The obligations on one WRITE -/

/-- Settles O32: step 1 is all there is of steps 1 and 2, and step 3 submits nothing. -/
theorem writeExtendsThePartialFrame : Obligations.WriteExtendsThePartialFrame := by
  intro s src hr hrej hlt
  obtain ⟨t, hexec, hdone⟩ := hr.write_extended hrej hlt
  refine ⟨t, hexec, ?_, ?_, hdone.submittedFrames_eq.trans (List.append_nil _)⟩
  · rw [hdone.wr_eq, WrState.extended, hrej]
  · rw [hdone.wr_eq]
    exact Nat.sub_pos_of_lt hlt

/-- Settles O35: the cut of the input has no frame, and its rest begins with the unrecognised code. -/
theorem writeRejectsAnUnrecognisedCode : Obligations.WriteRejectsAnUnrecognisedCode := by
  intro s b0 tl hr hrej hn hfld
  have hi := hr.inv.wr hr.session
  have hcut : IsCut s.cfg (s.wr.held ++ b0 :: tl) [] (b0 :: tl) := by
    rw [hi.held_eq_nil hn]
    exact IsCut.rest fun n h => nomatch hfld.symm.trans h
  have hend : cutEnd s.cfg (s.wr.completed (b0 :: tl)) (b0 :: tl) = (⟨s.wr.buf, 0, 0, true⟩, [.corruptStream b0]) := by
    simp [cutEnd, hfld, hi.completed_of_idle hrej hn, hi.filled_eq_zero hn, hn]
  obtain ⟨t, hexec, hdone⟩ := hr.write_completed hrej (hn ▸ Nat.zero_le _) hcut
  rw [hend, List.map_nil, List.nil_append] at hdone
  obtain ⟨-, -, -, hfaults, -⟩ := hdone.keeps
  refine ⟨t, _, _, hexec, hdone.wr_eq, hfaults, ?_, hdone.submittedFrames_eq.trans (List.append_nil _), hdone.response⟩
  rw [hdone.history]
  exact List.prefix_append _ _

/-- Settles O36: steps 1 and 2 do nothing, and rejecting is no incomplete path, so TAN runs. -/
theorem writeDiscardsWhileRejecting : Obligations.WriteDiscardsWhileRejecting := by
  intro s src hr hrej
  obtain ⟨t, hexec, hdone⟩ := execWrite_rejecting (src := src) hr.session hrej
  obtain ⟨husb, hspi⟩ := writeFires_of_runs (src := src) (s := s) (by simp [tanRuns, writeIncomplete, hrej])
  refine ⟨t, hexec, hdone.wr_eq, hdone.submittedFrames_eq.trans (List.append_nil _), ?_⟩
  simpa [husb, hspi] using hdone.resumeSignals_eq ⟨rfl, rfl⟩

/-- Settles O37: the write side is what the rest of the cut says. -/
theorem writeSubmitsTheCutOfItsStream : Obligations.WriteSubmitsTheCutOfItsStream := by
  intro s src hr hrej
  obtain ⟨frames, rest, wr, ends, t, hcut, hrest, hexec, hdone⟩ := hr.write_cut hrej src
  obtain rfl := hdone.wr_eq
  refine ⟨t, frames, rest, hexec, hcut, ?_, ?_, hrest.of_unrecognised, hrest.of_recognised⟩
  · rw [hdone.history, List.append_assoc, ← List.append_assoc]
    simp
  · rw [hdone.submittedFrames_eq, submittedFrames_append, hrest.submittedFrames_ends, List.append_nil,
      List.length_append, submittedFrames_submits_length]

/-- Settles O40: the path is not one that skips TAN, so the fires are the answers' comparisons. -/
theorem admissionCheckIsLevelTriggered : Obligations.AdmissionCheckIsLevelTriggered := by
  intro s src hr hruns
  have hruns : tanRuns (writeIncomplete src s.wr) s.cfg = true := by
    rcases hruns with hle | hnotify
    · simp [tanRuns, writeIncomplete, hle]
    · simp [tanRuns, hnotify]
  obtain ⟨new, wr, t, hexec, hdone, hnew, -⟩ := hr.write_done src
  obtain ⟨husb, hspi⟩ := writeFires_of_runs hruns
  obtain ⟨tusb, tspi, tdraws⟩ := execWrite_takes hr.cfg hr.session (hr.inv.wr hr.session) hr.inv.mem.wrWf
    hr.inv.mem.wrIn hruns hexec
  refine ⟨t, new, hexec, ?_, hnew.2, ?_, fun u us h => ⟨usbAnswer_drawn h, ?_⟩, fun p ps h => ⟨spiAnswer_drawn h, ?_⟩,
    fun h => ?_, fun h => ?_, tdraws⟩
  · rw [hdone.history, husb, hspi]
    simp [resumeIf]
  · rw [hdone.response, husb, hspi, hdone.wr_eq]
    rfl
  all_goals simp [tusb, tspi, h]

/-- Settles O41: steps 1 and 2 extend the pending frame, and step 3 is the response alone. -/
theorem admissionCheckSkippedOnIncomplete : Obligations.AdmissionCheckSkippedOnIncomplete := by
  intro s src hr hrej hlt hnotify
  have hexec := execWrite_ok hr.session (writeBody_extended hr.cfg (hr.inv.wr hr.session) hrej hlt)
  have hincomplete : writeIncomplete src s.wr = true := by simp [writeIncomplete, hrej, hlt]
  rw [hincomplete, writeFinish_quiet (s := { s with wr := s.wr.extended src }) hnotify] at hexec
  refine ⟨_, hexec, rfl, rfl, rfl, rfl, ?_⟩
  simp [wrPending, WrState.extended, hrej, hlt]

/-- Settles O42: the bits of the response are the fires of step 3 and the write side. -/
theorem writeResponseBits : Obligations.WriteResponseBits := by
  intro s src hr
  obtain ⟨new, wr, t, hexec, hdone, hnew, -⟩ := hr.write_done src
  obtain ⟨hlt, husb, hspi, hpending, hreject⟩ := writeResponse_bits (writeFires .usb src s) (writeFires .spi src s)
    (wrPending wr) wr.reject
  refine ⟨t, _, _, hexec, hdone.response, by rw [hdone.history, List.append_assoc], hlt, husb.trans ?_, hspi.trans ?_,
    hpending.trans ?_, hreject.trans ?_⟩
  · simp [← mem_resumeSignals, hnew.2]
  · simp [← mem_resumeSignals, hnew.2]
  · simp [wrPending, hdone.wr_eq]
  · rw [hdone.wr_eq]

/-- Settles O43: an incomplete WRITE appends its input, any other completes the pending frame and stores the rest of its
cut at the front. -/
theorem writeFrame : Obligations.WriteFrame := by
  intro s t src hr h
  obtain ⟨new, wr, t', hexec, hdone, -, -⟩ := hr.write_done src
  obtain rfl : t = t' := Host.Outcome.next.inj (h.symm.trans hexec)
  obtain ⟨hcfg, hrd, hopen, hfaults, hrxq, harr, hdst, hfld, hagenda⟩ := hdone.keeps
  refine ⟨hcfg, hrd, hopen, hfaults, hrxq, harr, hdst, hfld, hagenda, fun a hfront ha => ?_⟩
  rcases hr.write_outcome h with ⟨-, hdone⟩ | ⟨hlt, hdone⟩ | ⟨hle, frames, rest, -, hdone⟩
  · rw [hdone.wr_eq]
  · rw [hdone.wr_eq]
    exact Memory.read_write_out (by omega)
  · have hfront := hfront hle
    rw [hdone.wr_eq] at hfront ⊢
    rw [cutEnd_read hfront]
    exact Memory.read_write_out (by rw [List.length_take]; omega)

/-- Settles O44: the first frame takes at least one byte of the input, every other at least six. -/
theorem writeSubmitsAtMostOneFramePerSixBytes : Obligations.WriteSubmitsAtMostOneFramePerSixBytes := by
  intro s t src hr h
  rcases hr.write_outcome h with ⟨-, hdone⟩ | ⟨-, hdone⟩ | ⟨-, frames, rest, hcut, hdone⟩
  · rw [hdone.submittedFrames_eq, List.length_append]
    exact Nat.add_le_add_left (Nat.zero_le _) _
  · rw [hdone.submittedFrames_eq, List.length_append]
    exact Nat.add_le_add_left (Nat.zero_le _) _
  · have hrest := cutEnd_wroteRest (wr := s.wr.completed src) rfl rfl rfl hcut.stop
    rw [hdone.submittedFrames_eq, submittedFrames_append, hrest.submittedFrames_ends, List.append_nil,
      List.length_append, submittedFrames_submits_length]
    cases frames with
    | nil => simp
    | cons frame frames =>
      have hstream := hcut.whole
      rw [List.flatten_cons, List.append_assoc] at hstream
      have hfirst := (hcut.frame frame (by simp)).length_lt (hr.inv.wr hr.session).held_stop.1 hstream
      have hothers := minFrame_mul_length_le fun bs hbs => hcut.frame bs (List.mem_cons_of_mem frame hbs)
      have hlen := congrArg List.length hstream
      simp only [List.length_append, minFrame, List.length_cons] at hlen hothers ⊢
      omega

end Sys2Proof.Machine
end

section
/-! SUPPORT. WRITEs in a row: the chunks of a stream submit the frames of the whole stream's cut (R61), a RESET discards
what both directions held (R191), SPLIT covers its bytes (R95), and the ascending copy (R56). -/

namespace Sys2Proof.Machine

/-! ## WRITEs in a row -/

/-- A rejecting write side submits nothing of all that follows (R132). -/
theorem Ready.execAll_rejecting {s : State} {chunks : List (List Byte)} (hr : Ready s) (hrej : s.wr.reject = true) :
    ∃ t, execAll (chunks.map .write) s = .next t ∧ submittedFrames t.history = submittedFrames s.history ∧
      t.wr.reject = true := by
  induction chunks generalizing s with
  | nil => exact ⟨s, rfl, rfl, hrej⟩
  | cons c cs ih =>
    obtain ⟨t, hexec, hdone⟩ := execWrite_rejecting (src := c) hr.session hrej
    have hready : Ready t := hr.of_exec (i := .write c) hexec
    obtain ⟨u, hall, hsub, hreject⟩ := ih hready (hdone.wr_eq ▸ hrej)
    refine ⟨u, ?_, hsub.trans (hdone.submittedFrames_eq.trans (List.append_nil _)), hreject⟩
    rw [List.map_cons, execAll, show exec (.write c) s = .next t from hexec]
    exact hall

/-- A stream that stops at an unrecognised code stops there whatever follows (R137). -/
theorem IsCut.append_unrecognised {cfg : Config} {stream rest more : List Byte} {frames : List (List Byte)}
    (h : IsCut cfg stream frames rest) (hu : Unrecognised cfg rest) :
    IsCut cfg (stream ++ more) frames (rest ++ more) ∧ Unrecognised cfg (rest ++ more) := by
  cases rest with
  | nil => exact hu.elim
  | cons b0 tl => exact ⟨⟨by simp [h.whole], h.frame, fun n hn => nomatch hu.symm.trans hn⟩, hu⟩

/-- WRITEs of the chunks of a stream, behind the bytes held: each goes on with what the one before left of the cut. -/
theorem Ready.execAll_cut {s : State} {chunks frames : List (List Byte)} {rest : List Byte} (hr : Ready s)
    (hrej : s.wr.reject = false) (hcut : IsCut s.cfg (s.wr.held ++ chunks.flatten) frames rest) :
    ∃ t, execAll (chunks.map .write) s = .next t ∧
      submittedFrames t.history = submittedFrames s.history ++ submittedFrames (frames.map submitEvent) ∧
      (Unrecognised s.cfg rest ↔ t.wr.reject = true) ∧ (¬ Unrecognised s.cfg rest → t.wr.held = rest) := by
  induction chunks generalizing s frames with
  | nil =>
    obtain ⟨hstop, hrec⟩ := (hr.inv.wr hr.session).held_stop
    rw [List.flatten_nil, List.append_nil] at hcut
    obtain ⟨rfl, rfl⟩ := hcut.unique (IsCut.rest hstop)
    exact ⟨s, rfl, (List.append_nil _).symm, by simp [hrec, hrej], fun _ => rfl⟩
  | cons c cs ih =>
    obtain ⟨frames₁, rest₁, wr, ends, t, hcut₁, hrest, hexec, hdone⟩ := hr.write_cut hrej c
    obtain rfl := hdone.wr_eq
    obtain ⟨hcfg, -⟩ := hdone.keeps
    have hready := hr.of_exec hexec
    have hsub₁ : submittedFrames t.history =
        submittedFrames s.history ++ submittedFrames (frames₁.map submitEvent) := by
      rw [hdone.submittedFrames_eq, submittedFrames_append, hrest.submittedFrames_ends, List.append_nil]
    rw [List.flatten_cons, ← List.append_assoc] at hcut
    rw [List.map_cons, execAll, hexec]
    by_cases hu : Unrecognised s.cfg rest₁
    · obtain ⟨hcut', hu'⟩ := hcut₁.append_unrecognised (more := cs.flatten) hu
      obtain ⟨rfl, rfl⟩ := hcut.unique hcut'
      obtain ⟨hreject, -⟩ := hrest.of_unrecognised hu
      obtain ⟨u, hall, hsub, hreject⟩ := hready.execAll_rejecting (chunks := cs) hreject
      exact ⟨u, hall, hsub.trans hsub₁, by simp [hu', hreject], fun hn => absurd hu' hn⟩
    · obtain ⟨hreject, rfl⟩ := hrest.of_recognised hu
      obtain ⟨frames₂, rest₂, hcut₂⟩ := IsCut.exists_of_length s.cfg _ (t.wr.held ++ cs.flatten) le_rfl
      obtain ⟨rfl, rfl⟩ := hcut.unique (hcut₁.append hcut₂)
      obtain ⟨u, hall, hsub, hreject, hheld⟩ := ih hready hreject (hcfg ▸ hcut₂)
      rw [hcfg] at hreject hheld
      refine ⟨u, hall, ?_, hreject, hheld⟩
      rw [hsub, hsub₁, List.map_append, submittedFrames_append, List.append_assoc]

/-- Settles O38: with nothing held the chunks are all of the stream. -/
theorem writesReassembleAnyChunks : Obligations.WritesReassembleAnyChunks := by
  intro s chunks frames rest hr hrej hn hcut
  refine hr.execAll_cut hrej ?_
  rwa [(hr.inv.wr hr.session).held_eq_nil hn, List.nil_append]

/-! ## RESET -/

/-- Settles O48: after RESET nothing is pending in either direction, so READs and WRITEs start from the queue and from
their own input. -/
theorem resetDiscardsPartialFrames : Obligations.ResetDiscardsPartialFrames := by
  intro s t hr harr hok h
  have hready := hr.of_exec h
  cases h
  constructor
  · intro caps hcaps
    obtain ⟨u, hall, -⟩ := QueueReady.readAll ⟨hready, harr, hok⟩ hcaps
    exact ⟨u, _, hall, List.take_prefix _ _⟩
  · intro chunks frames rest hcut
    obtain ⟨u, hall, hsub, -⟩ := hready.execAll_cut rfl hcut
    exact ⟨u, hall, hsub⟩

/-! ## SPLIT -/

theorem splitChunks_nil (k fuel : Nat) : splitChunks k fuel [] = [] := by
  cases fuel <;> rfl

theorem splitChunks_flatten {k fuel : Nat} {bs : List Byte} (hk : 1 ≤ k) (hfuel : bs.length ≤ fuel) :
    (splitChunks k fuel bs).flatten = bs := by
  induction fuel generalizing bs with
  | zero => exact (List.eq_nil_of_length_eq_zero (by omega)).symm
  | succ fuel ih =>
    cases bs with
    | nil => rfl
    | cons b bs =>
      rw [splitChunks, List.flatten_cons, ih (by simp at hfuel ⊢; omega), List.take_append_drop]

/-- Every chunk but the last has k bytes, and the last has at least one. -/
theorem splitChunks_concat {k fuel : Nat} {bs last : List Byte} {pre : List (List Byte)} (hk : 1 ≤ k)
    (h : splitChunks k fuel bs = pre ++ [last]) :
    (∀ c ∈ pre, c.length = k) ∧ 1 ≤ last.length ∧ last.length ≤ k := by
  induction fuel generalizing bs pre with
  | zero => simp [splitChunks] at h
  | succ fuel ih =>
    cases bs with
    | nil => simp [splitChunks] at h
    | cons b bs =>
      rw [splitChunks] at h
      cases pre with
      | nil =>
        obtain ⟨rfl, -⟩ := List.cons.inj h
        simpa using hk
      | cons c pre =>
        obtain ⟨rfl, hrest⟩ := List.cons.inj h
        have hlong : k < (b :: bs).length := by
          by_contra hshort
          rw [List.drop_eq_nil_of_le (by omega), splitChunks_nil] at hrest
          simp at hrest
        obtain ⟨hpre, hlast⟩ := ih hrest
        refine ⟨fun d hd => ?_, hlast⟩
        rcases List.mem_cons.1 hd with rfl | hd
        · exact List.length_take_of_le hlong.le
        · exact hpre d hd

/-- Settles O45: the chunks are the front of the bytes, k at a time. -/
theorem splitCoversItsBytes : Obligations.SplitCoversItsBytes :=
  fun _ _ hk => ⟨splitChunks_flatten hk le_rfl, fun _ _ => splitChunks_concat hk⟩

/-! ## The ascending copy -/

/-- Settles O54: the first byte lands below the source bytes still to be read, and adjacent writes are one write. -/
theorem ascendingCopyShiftsDown : Obligations.AscendingCopyShiftsDown := by
  intro m src dst n hwf hle
  induction n generalizing m src dst with
  | zero => exact (Memory.write_nil hwf dst).symm
  | succ n ih =>
    have hbehind : (m.write dst [m.read src]).readRange (src + 1) n = m.readRange (src + 1) n :=
      Memory.readRange_write_out (.inr (by simpa using hle))
    rw [copyAscending, ih _ _ _ (Memory.wf_write hwf) (by omega), hbehind, Memory.readRange_succ]
    exact Memory.write_append hwf dst [m.read src] _

end Sys2Proof.Machine
end

section
/-! SUPPORT. A READ and a WRITE give the same in either order (R59, D32): READ does the same whatever a WRITE has left
of the write side, the answers, the response and the history, and WRITE depends on no more than the parameters, the
write side, the session and the answers. -/

namespace Sys2Proof.Machine

/-! ## READ behind a WRITE -/

/-- `s` with the write side, the answers and the response of `g`, and the history of `g` before its own: what a WRITE
may have changed when a READ starts. -/
def State.graft (g s : State) : State :=
  { s with
    wr := g.wr, usbDraws := g.usbDraws, spiDraws := g.spiDraws, draws := g.draws, response := g.response
    history := g.history ++ s.history }

@[simp] theorem State.graft_cfg (g s : State) : (g.graft s).cfg = s.cfg := rfl
@[simp] theorem State.graft_rd (g s : State) : (g.graft s).rd = s.rd := rfl
@[simp] theorem State.graft_rxq (g s : State) : (g.graft s).rxq = s.rxq := rfl
@[simp] theorem State.graft_arrivals (g s : State) : (g.graft s).arrivals = s.arrivals := rfl

theorem pop_graft (g s : State) : pop (g.graft s) = Prod.map id g.graft (pop s) := by
  rw [pop_eq, pop_eq]
  simp only [State.graft_rxq, State.graft_arrivals]
  cases s.rxq ++ s.arrivals.headD [] <;> rfl

theorem emit_graft (e : Event) (g s : State) : emit e (g.graft s) = g.graft (emit e s) := by
  simp [emit, State.graft]

theorem readDrain_graft (cap : Nat) (g s : State) :
    readDrain cap (g.graft s) = mapEnd g.graft (Prod.map id g.graft) (readDrain cap s) := by
  by_cases h : s.rd.filled ≤ s.cfg.ovfCap
  · rw [readDrain_ok h, readDrain_ok (s := g.graft s) h]; rfl
  · have ho : s.cfg.ovfCap < s.rd.filled := Nat.lt_of_not_le h
    rw [readDrain_overrun ho, readDrain_overrun (s := g.graft s) ho]; rfl

theorem readSplit_graft (cap pos : Nat) (bs : List Byte) (g s : State) :
    readSplit cap pos bs (g.graft s) = mapEnd g.graft (Prod.map id g.graft) (readSplit cap pos bs s) := by
  unfold readSplit
  simp only [State.graft_cfg, State.graft_rd]
  cases h : bufWrite s.cfg s.rd.buf 0 (bs.drop (cap - pos)) with
  | ok buf => rfl
  | error e => exact congrArg Except.error (bufWrite_error h _).symm

theorem readPops_graft (cap fuel pos : Nat) (g s : State) :
    readPops cap fuel pos (g.graft s) = mapEnd g.graft (Prod.map id g.graft) (readPops cap fuel pos s) := by
  induction fuel generalizing pos s with
  | zero => rfl
  | succ fuel ih =>
    unfold readPops
    rw [pop_graft]
    by_cases hfull : cap ≤ pos
    · simp [hfull]
    · rw [if_neg hfull, if_neg hfull]
      match pop s with
      | (none, t) => rfl
      | (some f, t) =>
        have hdeliver (u : State) : deliver pos f.bytes (g.graft u) = g.graft (deliver pos f.bytes u) := rfl
        simp only [Prod.map, id, emit_graft, hdeliver, State.graft_cfg, ih, readSplit_graft]
        split_ifs <;> rfl

/-- READ's steps 1 to 3 are the same behind a WRITE (R43, R101). -/
theorem readBody_graft (cap : Nat) (g s : State) :
    readBody cap (g.graft s) = mapEnd g.graft (Prod.map id g.graft) (readBody cap s) := by
  unfold readBody
  rw [readDrain_graft]
  match readDrain cap s with
  | .error e => rfl
  | .ok (pos, t) =>
    simp only [mapEnd_ok, Prod.map, id, State.graft_rd, readPops_graft]
    split <;> rfl

/-- READ in an open session, from what its steps 1 to 3 did. -/
theorem execRead_ok {cap count : Nat} {s t : State} (ho : s.sessionOpen = true) (h : readBody cap s = .ok (count, t)) :
    execRead cap s = .next (readRespond count t) := by
  unfold execRead
  rw [if_neg (by simp [ho]), h]
  rfl

/-- Over a well-formed queue READ's body comes to its end. -/
theorem Ready.readBody_answers {s : State} (hr : Ready s) (hq : QueueOk s) (cap : Nat) :
    ∃ popped m count t, readBody cap s = .ok (count, t) ∧ ReadDone cap s popped m (readRespond count t) := by
  obtain ⟨popped, m, r, hexec, hdone⟩ := hr.read_answers hq cap
  have hread : execRead cap s = .next r := hexec
  match hbody : readBody cap s with
  | .ok (count, t) =>
    rw [execRead_ok hr.session hbody] at hread
    cases hread
    exact ⟨popped, m, count, t, rfl, hdone⟩
  | .error .overrun =>
    unfold execRead at hread
    rw [if_neg (by simp [hr.session]), hbody] at hread
    cases hread
  | .error (.raised record t) =>
    unfold execRead at hread
    rw [if_neg (by simp [hr.session]), hbody] at hread
    cases hread
    exact nomatch hdone.response

/-- Over a well-formed queue READ's body is the same behind every WRITE: `t` is what it does to `s` with an empty
history, and `g` is any state that differs from `s` in nothing that a READ reads. -/
theorem Ready.readBody_local {s : State} (hr : Ready s) (hq : QueueOk s) (cap : Nat) :
    ∃ popped count t, t.cfg = s.cfg ∧ t.sessionOpen = s.sessionOpen ∧ t.history = popEvents popped ∧
      ∀ g : State, g.graft { s with history := [] } = g → readBody cap g = .ok (count, g.graft t) := by
  obtain ⟨popped, m, count, r, hbody, hdone⟩ := hr.readBody_answers hq cap
  have hself : s.graft { s with history := [] } = s := by simp [State.graft]
  have hgraft := readBody_graft cap s { s with history := [] }
  rw [hself, hbody] at hgraft
  match hstart : readBody cap { s with history := [] } with
  | .error e =>
    rw [hstart] at hgraft
    cases hgraft
  | .ok (count', t) =>
    rw [hstart] at hgraft
    cases hgraft
    obtain ⟨hcfg, -, hopen, -⟩ := hdone.keeps
    refine ⟨popped, count', t, hcfg, hopen, List.append_cancel_left hdone.history, fun g hg => ?_⟩
    have hbehind := readBody_graft cap g { s with history := [] }
    rwa [hg, hstart] at hbehind

/-! ## WRITE behind a READ -/

/-- The answers are the heads of the lists, or free values by the count of free ones (R171). -/
theorem usbAnswer_eq (s : State) : usbAnswer s = s.usbDraws.headD (Config.freeSlotsDraw .usb s.draws) := by
  cases h : s.usbDraws <;> simp [usbAnswer, freeSlots, h]

theorem spiAnswer_eq (s : State) : spiAnswer s =
    s.spiDraws.headD (Config.freeSlotsDraw .spi (s.draws + if s.usbDraws = [] then 1 else 0)) := by
  rw [spiAnswer, freeSlots_usb_takes]
  cases h : s.spiDraws <;> simp [freeSlots]

/-- Step 3 exactly: what it signals and answers, and the answers it takes where TAN runs (R140, R171, R257). -/
theorem writeFinish_eq (incomplete : Bool) (s : State) : writeFinish incomplete s =
    { s with
      history := s.history ++
        (resumeIf .usb (tanRuns incomplete s.cfg && decide (s.cfg.tUsb ≤ usbAnswer s)) ++
          resumeIf .spi (tanRuns incomplete s.cfg && decide (s.cfg.tSpi ≤ spiAnswer s)))
      usbDraws := if tanRuns incomplete s.cfg then s.usbDraws.tail else s.usbDraws
      spiDraws := if tanRuns incomplete s.cfg then s.spiDraws.tail else s.spiDraws
      draws := if tanRuns incomplete s.cfg
        then s.draws + (if s.usbDraws = [] then 1 else 0) + (if s.spiDraws = [] then 1 else 0) else s.draws
      response := some (writeResponse (tanRuns incomplete s.cfg && decide (s.cfg.tUsb ≤ usbAnswer s))
        (tanRuns incomplete s.cfg && decide (s.cfg.tSpi ≤ spiAnswer s)) (wrPending s.wr) s.wr.reject) } := by
  cases h : tanRuns incomplete s.cfg with
  | false => simp [writeFinish, h, respond]
  | true =>
    obtain ⟨u, p, d, hst⟩ := writeFinish_spec incomplete s
    obtain ⟨hu, hp, hd⟩ := writeFinish_takes h
    rw [hst] at hu hp hd
    simp only at hu hp hd
    rw [hst, hu, hp, hd, h]
    rfl

/-- `s` with what a WRITE writes as in `w`, and the events `new` behind its history. -/
def State.written (w : State) (new : List Event) (s : State) : State :=
  { s with
    wr := w.wr, usbDraws := w.usbDraws, spiDraws := w.spiDraws, draws := w.draws, response := w.response
    history := s.history ++ new }

/-- Two states in which a WRITE finds the same: the parameters, the write side, the session and the answers. -/
abbrev SameWriteInputs (s s' : State) : Prop :=
  s'.cfg = s.cfg ∧ s'.wr = s.wr ∧ s'.sessionOpen = s.sessionOpen ∧ s'.usbDraws = s.usbDraws ∧
    s'.spiDraws = s.spiDraws ∧ s'.draws = s.draws

/-- Step 3 depends on the parameters, the write side and the answers alone. -/
theorem writeFinish_local (incomplete : Bool) (s : State) : ∃ signals, poppedFrames signals = [] ∧
    ∀ s', SameWriteInputs s s' → writeFinish incomplete s' = (writeFinish incomplete s).written signals s' := by
  refine ⟨resumeIf .usb (tanRuns incomplete s.cfg && decide (s.cfg.tUsb ≤ usbAnswer s)) ++
    resumeIf .spi (tanRuns incomplete s.cfg && decide (s.cfg.tSpi ≤ spiAnswer s)), by simp, ?_⟩
  rintro s' ⟨hcfg, hwr, -, husb, hspi, hdraws⟩
  simp only [writeFinish_eq, usbAnswer_eq, spiAnswer_eq, State.written, hcfg, hwr, husb, hspi, hdraws]

/-- Steps 1 and 2 depend on the parameters and the write side alone. -/
theorem Ready.writeBody_local {s : State} (hr : Ready s) (src : List Byte) : ∃ new wr, poppedFrames new = [] ∧
    ∀ s' : State, s'.cfg = s.cfg → s'.wr = s.wr →
      writeBody src s' = .ok { s' with history := s'.history ++ new, wr := wr } := by
  have hi := hr.inv.wr hr.session
  cases hrej : s.wr.reject with
  | true =>
    refine ⟨[], s.wr, rfl, fun s' _ hwr => ?_⟩
    rw [writeBody_rejecting (by rw [hwr, hrej]), List.append_nil, ← hwr]
  | false =>
    by_cases hlt : src.length < s.wr.needed
    · refine ⟨[], s.wr.extended src, rfl, fun s' hcfg hwr => ?_⟩
      rw [writeBody_extended (hcfg ▸ hr.cfg) (hi.congr hcfg hwr) (by rw [hwr, hrej]) (by rwa [hwr]), List.append_nil,
        hwr]
    · obtain ⟨frames, rest, hcut⟩ := IsCut.exists_of_length s.cfg _ (s.wr.held ++ src) le_rfl
      have hrest := cutEnd_wroteRest (wr := s.wr.completed src) rfl rfl rfl hcut.stop
      refine ⟨_, _, ?_, fun s' hcfg hwr => (writeBody_cut (hcfg ▸ hr.cfg) (hi.congr hcfg hwr) (by rw [hwr, hrej])
        (by rw [hwr]; omega) (by rw [hcfg, hwr]; exact hcut)).trans (by rw [hcfg, hwr])⟩
      rw [poppedFrames_append, (streamEvents_submits frames).1, hrest.streamEvents.1]
      rfl

/-- A WRITE does the same in every state that agrees on what it finds. -/
theorem Ready.write_local {s : State} (hr : Ready s) (src : List Byte) :
    ∃ (new : List Event) (w : State), poppedFrames new = [] ∧
    ∀ s', SameWriteInputs s s' → exec (.write src) s' = .next (w.written new s') := by
  obtain ⟨new, wr, hnew, hbody⟩ := hr.writeBody_local src
  obtain ⟨signals, hsignals, hfinish⟩ := writeFinish_local (writeIncomplete src s.wr)
    { s with history := s.history ++ new, wr := wr }
  refine ⟨new ++ signals, writeFinish (writeIncomplete src s.wr) { s with history := s.history ++ new, wr := wr },
    by simp [hnew, hsignals], ?_⟩
  rintro s' ⟨hcfg, hwr, hopen, hdraws⟩
  have hexec : exec (.write src) s' = _ := execWrite_ok (hopen.trans hr.session) (hbody s' hcfg hwr)
  rw [hexec, hwr, hfinish { s' with history := s'.history ++ new, wr := wr } ⟨hcfg, rfl, hopen, hdraws⟩]
  simp [State.written]

/-! ## The obligation -/

/-- Settles O51: the READ's pops and the WRITE's events join the history in either order, and neither operation finds
anything that the other wrote. -/
theorem readAndWriteCommute : Obligations.ReadAndWriteCommute := by
  intro s cap src hr hq
  obtain ⟨popped, count, t, hcfg, hopen, hpops, hread⟩ := hr.readBody_local hq cap
  obtain ⟨new, w, hnew, hwrite⟩ := hr.write_local src
  have hself : s.graft { s with history := [] } = s := by simp [State.graft]
  have hbehind : (w.written new s).graft { s with history := [] } = w.written new s := by
    simp [State.graft, State.written]
  refine ⟨readRespond count (s.graft t), w.written new (readRespond count (s.graft t)), w.written new s,
    readRespond count ((w.written new s).graft t), execRead_ok hr.session (hread s hself),
    hwrite _ ⟨hcfg, rfl, hopen, rfl, rfl, rfl⟩, hwrite s ⟨rfl, rfl, rfl, rfl, rfl, rfl⟩,
    execRead_ok hr.session (hread _ hbehind), rfl, ?_, ?_, rfl, rfl⟩
  · simp [State.written, State.graft, hpops]
  · simp [State.written, State.graft, hpops, hnew]

end Sys2Proof.Machine
end
